-- ==== Sys2Proof/Word.lean ====
section
/-! DEFINITION. The two plain types every other file uses: the CORE's one word width and a resolved
register number (spec/10_state.md rules R21, R22; spec/00_scope.md rules R6, R8). -/

namespace Sys2Proof

/-- The CORE's only width: memory cells, registers, immediates, addresses and the program counter are
unsigned 8-bit values (R6 `CELL_WIDTH`, `REG_WIDTH`, `ADDR_WIDTH`, `PC_WIDTH`; R8). -/
abbrev Byte := BitVec 8

/-- A register of the file: the index of one of R0 to R7 (R22). An operand byte becomes one only
after the index check of R94. -/
abbrev Reg := Fin 8

end Sys2Proof
end

