-- ==== Sys2Proof/Syntax.lean ====
section
/-! DEFINITION. The instruction set (spec/00_scope.md rule R2, spec/30_encoding.md rules R66, R69 to
R71): six instructions, one constructor per row of spec/opcode_table.json. -/

namespace Sys2Proof

/-- An instruction with its operands as the bytes that carry them. A register operand is a WHOLE byte,
"read as an unsigned index in [0,255]" (R69): 0 to 7 name R0 to R7, and an instruction whose index byte
is 8 to 255 is still that instruction and raises ILLEGAL_REGISTER (R162), so the byte is kept. -/
inductive Instr
  /-- HLT, format N (R110). -/
  | hlt
  /-- LDI r, imm, format RI (R120). -/
  | ldi (r imm : Byte)
  /-- PRN r, format R (R112). -/
  | prn (r : Byte)
  /-- MUL a, b, format RR (R130). -/
  | mul (a b : Byte)
  /-- PUSH r, format R (R140). -/
  | push (r : Byte)
  /-- POP r, format R (R145). -/
  | pop (r : Byte)
  deriving DecidableEq, Repr

end Sys2Proof
end

