-- ==== Sys2Proof/WellFormed.lean ====
section
/-! DEFINITION. Well-formed instructions: every register operand names a register
(spec/30_encoding.md rule R69). Immediates are never checked (R70, R75). -/

namespace Sys2Proof

/-- The operand bytes that are register indices (R66, R94): B1 of PRN, PUSH, POP, LDI and MUL, and B2
of MUL; LDI's B2 is an immediate. -/
def Instr.regOperands : Instr → List Byte
  | .hlt => []
  | .ldi r _ => [r]
  | .prn r => [r]
  | .mul a b => [a, b]
  | .push r => [r]
  | .pop r => [r]

/-- "Values 0 to 7 name R0 to R7" (R69). -/
def namesRegister (b : Byte) : Bool := decide (b.toNat ≤ 7)

/-- Every register operand names a register (R69). -/
def Instr.wellFormed (i : Instr) : Bool := i.regOperands.all namesRegister

/-- `Instr.wellFormed` as a decidable proposition. -/
abbrev Instr.WellFormed (i : Instr) : Prop := i.wellFormed = true

end Sys2Proof
end

