-- ==== Sys2Proof/Decode.lean ====
section
/-! DEFINITION. Decoding and encoding (spec/30_encoding.md rules R65 to R75): the opcode map, a decoder
total on any bytes that rejects by name, the encoder, and the byte layout of one word of
spec/opcode_table.json. The machine's fetch stages (Machine/Fetch.lean) use the same opcode map. -/

namespace Sys2Proof

/-- The four instruction formats (R66). -/
inductive Format
  /-- No operand, 1 byte. -/
  | n
  /-- One register, 2 bytes. -/
  | r
  /-- Register and immediate, 3 bytes. -/
  | ri
  /-- Two registers, 3 bytes. -/
  | rr
  deriving DecidableEq, Repr

/-- A decoded opcode: "a decoded opcode enum" (R67). -/
inductive Opcode
  | hlt | ldi | prn | mul | push | pop
  deriving DecidableEq, Repr

/-- Why bytes are no instruction. -/
inductive DecodeError
  /-- The first byte is none of the six opcodes (R73). -/
  | illegalOpcode
  /-- The bytes end before the instruction does (R93: an operand byte lies beyond the memory), or there
  are none at all. -/
  | truncated
  deriving DecidableEq, Repr

/-- The opcode map (R71), written in binary as its "opcode (binary)" column has it. -/
def Opcode.byte : Opcode → Byte
  | .hlt => 0b00000001#8
  | .ldi => 0b10000010#8
  | .prn => 0b01000111#8
  | .mul => 0b10100010#8
  | .push => 0b01000101#8
  | .pop => 0b01000110#8

/-- Stage 2's comparison: "Decoding compares all eight bits of B0 with the six opcodes" (R67, R92). -/
def Opcode.ofByte (b : Byte) : Option Opcode :=
  if b = Opcode.byte .hlt then some .hlt
  else if b = Opcode.byte .ldi then some .ldi
  else if b = Opcode.byte .prn then some .prn
  else if b = Opcode.byte .mul then some .mul
  else if b = Opcode.byte .push then some .push
  else if b = Opcode.byte .pop then some .pop
  else none

/-- The format column of the opcode map (R71). -/
def Opcode.format : Opcode → Format
  | .hlt => .n
  | .ldi => .ri
  | .prn => .r
  | .mul => .rr
  | .push => .r
  | .pop => .r

/-- How many operand bytes a format has (R66). -/
def Format.operandCount : Format → Nat
  | .n => 0
  | .r => 1
  | .ri => 2
  | .rr => 2

/-- The operand count n of an opcode (R71, R92). -/
def Opcode.operandCount (op : Opcode) : Nat := op.format.operandCount

/-- An instruction's length: "length = 1 + operand count" (R72). -/
def Opcode.length (op : Opcode) : Nat := 1 + op.operandCount

/-- The instruction that an opcode and the operand bytes B1 and B2 make (R66). An opcode with fewer
operands ignores the bytes it does not have. -/
def Opcode.build (op : Opcode) (b1 b2 : Byte) : Instr :=
  match op with
  | .hlt => .hlt
  | .ldi => .ldi b1 b2
  | .prn => .prn b1
  | .mul => .mul b1 b2
  | .push => .push b1
  | .pop => .pop b1

/-- Finish decoding a format R instruction: one operand byte. -/
def decodeOne (f : Byte → Instr) : List Byte → Except DecodeError (Instr × List Byte)
  | b1 :: rest => .ok (f b1, rest)
  | [] => .error .truncated

/-- Finish decoding a format RI or RR instruction: two operand bytes. -/
def decodeTwo (f : Byte → Byte → Instr) : List Byte → Except DecodeError (Instr × List Byte)
  | b1 :: b2 :: rest => .ok (f b1 b2, rest)
  | [_] => .error .truncated
  | [] => .error .truncated

/-- Decode the operands that follow an opcode (R66, R72). -/
def Opcode.decodeOperands (op : Opcode) (rest : List Byte) : Except DecodeError (Instr × List Byte) :=
  match op with
  | .hlt => .ok (.hlt, rest)
  | .ldi => decodeTwo .ldi rest
  | .prn => decodeOne .prn rest
  | .mul => decodeTwo .mul rest
  | .push => decodeOne .push rest
  | .pop => decodeOne .pop rest

/-- Decode one instruction from bytes at ascending addresses; the answer holds the bytes left over
(R65, R67, R72). A register index above 7 is no decoding error: the instruction is decoded and raises
ILLEGAL_REGISTER when it runs (R94, R162). -/
def decode : List Byte → Except DecodeError (Instr × List Byte)
  | [] => .error .truncated
  | b0 :: rest =>
    match Opcode.ofByte b0 with
    | none => .error .illegalOpcode
    | some op => op.decodeOperands rest

/-- The opcode of an instruction (R71). -/
def Instr.opcode : Instr → Opcode
  | .hlt => .hlt
  | .ldi _ _ => .ldi
  | .prn _ => .prn
  | .mul _ _ => .mul
  | .push _ => .push
  | .pop _ => .pop

/-- The bytes of an instruction at ascending addresses, written from the formats of R66 and the
patterns of R71 and R79. -/
def encode : Instr → List Byte
  | .hlt => [0x01#8]
  | .ldi r imm => [0x82#8, r, imm]
  | .prn r => [0x47#8, r]
  | .mul a b => [0xA2#8, a, b]
  | .push r => [0x45#8, r]
  | .pop r => [0x46#8, r]

/-- The three bytes of an opcode-table word: bit 0 of `w` is the least significant bit of B0, B1 is
bits 15 to 8 and B2 bits 23 to 16; every bit at or above `nbits` is 0. Three bytes is the longest
instruction (R65). -/
def tableBytes (nbits w : Nat) : List Byte :=
  let v := w % 2 ^ nbits
  [BitVec.ofNat 8 v, BitVec.ofNat 8 (v / 2 ^ 8), BitVec.ofNat 8 (v / 2 ^ 16)]

/-- The instruction the decoder reads from an opcode-table word, or none where it refuses it. -/
def decodeTableWord (nbits w : Nat) : Option Instr :=
  match decode (tableBytes nbits w) with
  | .ok (i, _) => some i
  | .error _ => none

end Sys2Proof
end

