-- ==== Sys2Proof/Config.lean ====
section
/-! DEFINITION. The implementation parameters of spec/00_scope.md rule R6. The spec leaves exactly one
open, `REG_INIT_R0_R6`; the hidden latches' reset value is open too (R40). -/

namespace Sys2Proof.Config

/-- `MEM_SIZE` (R6, R21): the number of cells; addresses run from 0 to 255. -/
def memSize : Nat := 256

/-- What a cell that no load and no PUSH has written reads as: memory is "initialized to all zeros"
(R21, R40). -/
def cellReset : Byte := 0x00#8

/-- `SP_INDEX` (R6, R25): register 7 is the stack pointer by convention. -/
def spIndex : Reg := 7

/-- `SP_RESET` (R6, R25, R40). -/
def spReset : Byte := 0xF4#8

/-- `PC_RESET` (R6, R29, R40). -/
def pcReset : Byte := 0x00#8

/-- `LOAD_BASE` (R6, R193): image byte i goes to address `loadBase + i`. -/
def loadBase : Nat := 0

/-- `REG_INIT_R0_R6` (R6, R40). DESIGN CHOICE, unsafe (log entry 1): the spec states no value. -/
def regInit : Byte := 0x00#8

/-- The reset value of IR, B1 and B2. DESIGN CHOICE, safe (log entry 2): R40 leaves it unspecified and
no step reads a latch it has not loaded. -/
def latchInit : Byte := 0x00#8

end Sys2Proof.Config
end

