-- ==== Sys2Proof/Machine/State.lean ====
section
/-! DEFINITION. The state of the CORE as plain data (spec/10_state.md rules R20 to R41), the reasons a
step can stop, and the state right after reset (rule R40, spec/70_reset_and_hazards.md rule R190). -/

namespace Sys2Proof.Machine

/-- The run status (R33). The document's running flag is `status = running`. -/
inductive Status
  /-- After reset, before the host starts the run. -/
  | idle
  /-- The CORE executes steps. -/
  | running
  /-- HLT retired; the run ended normally. -/
  | halted
  /-- A fault stopped the run (R171). -/
  | faulted
  deriving DecidableEq, Repr

/-- The causes of a CORE fault (spec/60_exceptions.md rule R160). A CORE fault is an effect the spec
describes (fault entry, R171): it is a NEXT state whose status is `faulted`, never an outcome
`Outcome.fault`. -/
inductive FaultCause
  | illegalOpcode | illegalRegister | operandRange | pcOverflow | stackOverflow | stackUnderflow | aluBadOp
  deriving DecidableEq, Repr

/-- Memory: address and byte pairs in the canonical form `Memory.wf` (Machine/Ops.lean); an address
not listed holds the reset contents 0 (R21). -/
abbrev Memory := List Host.Cell

/-- The register file: exactly 8 registers of 8 bits (R22). -/
abbrev RegFile := Vector Byte 8

/-- Everything the spec gives the machine: the tuple of R20, and the hidden IR (R36) and operand
latches B1, B2 (R37). -/
structure State where
  /-- `mem` (R21). -/
  mem : Memory
  /-- `x`, registers R0 to R7; R7 is SP by convention (R22 to R25). -/
  x : RegFile
  /-- `pc` (R29). -/
  pc : Byte
  /-- `status` (R33). -/
  status : Status
  /-- `fault_cause`, host read-only: 0, or the code of the fault that stopped the run (R34). -/
  faultCause : Byte
  /-- `fault_pc`, host read-only: the address of the instruction that faulted (R34). -/
  faultPc : Byte
  /-- `out`: what PRN has emitted, oldest first (R38). -/
  out : List Byte
  /-- IR, hidden: the opcode byte the last step fetched (R36). -/
  ir : Byte
  /-- B1, hidden: the first operand byte last fetched (R37). -/
  b1 : Byte
  /-- B2, hidden: the second operand byte last fetched (R37). -/
  b2 : Byte
  deriving DecidableEq, Repr

/-- Why there is no step: "A step exists only when `status = RUNNING`" (R90, R10). These are the only
outcomes `Outcome.fault`; all three are raised by `step` alone, before any instruction is fetched, and
all three are safe: the hardware takes no step either. -/
inductive Fault
  /-- Raised by `step` in IDLE: the host has not started the run (R90, R195). Safe. -/
  | notStarted
  /-- Raised by `step` in HALTED: HLT ended the run (R90, R102). Safe. -/
  | runHalted
  /-- Raised by `step` in FAULTED: a CORE fault ended the run (R90, R174, R175). Safe. -/
  | runFaulted
  deriving DecidableEq, Repr

/-- Why an instruction has no meaning. Every instruction has one, so nothing raises this. -/
inductive Refusal
  /-- An instruction with no meaning yet, by its mnemonic; raised by no arm of `exec`. Safe. -/
  | notModelled (mnemonic : String)
  deriving DecidableEq, Repr

/-- The state after reset (R40, R190). R0 to R6 hold `Config.regInit` (log entry 1) and the latches
`Config.latchInit` (log entry 2); every other value is the spec's. -/
def State.reset : State where
  mem := []
  x := (Vector.replicate 8 Config.regInit).set Config.spIndex Config.spReset
  pc := Config.pcReset
  status := .idle
  faultCause := 0x00#8
  faultPc := 0x00#8
  out := []
  ir := Config.latchInit
  b1 := Config.latchInit
  b2 := Config.latchInit

end Sys2Proof.Machine
end

