-- ==== Sys2Proof/Machine/Flags.lean ====
section
/-! DEFINITION. The CORE has no flags register and no condition codes (spec/10_state.md rule R35). What
its arithmetic decides instead are four range conditions, each of which raises a fault: this file
holds them, computed on integers that do not wrap (spec/40_cycle.md rules R93, R96, R97;
spec/44_stack.md rules R141, R146). -/

namespace Sys2Proof.Machine

/-- The operand byte B`k` would lie above address 255 (R93). -/
def operandOutOfRange (pc : Byte) (k : Nat) : Bool := decide (pc.toNat + k > 255)

/-- The address after an instruction of `len` bytes is above 255 (R97). -/
def pcOverflows (pc : Byte) (len : Nat) : Bool := decide (pc.toNat + len > 255)

/-- A PUSH at this SP would decrement it below address 0 (R141). -/
def stackOverflows (sp0 : Byte) : Bool := decide (sp0.toNat = 0)

/-- Incrementing this SP would carry it above 255 (R146). -/
def stackUnderflows (sp1 : Byte) : Bool := decide (sp1.toNat = 255)

end Sys2Proof.Machine
end

