-- ==== Sys2Proof/Machine/Ops.lean ====
section
/-! DEFINITION. The shared operations over memory, registers, output and program counter
(spec/00_scope.md rule R9), taking a fault (spec/60_exceptions.md rules R160, R171, R172) and retiring
an instruction (spec/40_cycle.md rules R96, R97). There is no return from a fault (R174), so no
operation for one; FAULTED is left only by the host's reset (Machine/HostPort.lean). -/

namespace Sys2Proof.Machine

/-- What a step or a meaning answers. -/
abbrev Result := Host.Outcome State Fault Refusal

/-- The canonical form of a memory: addresses inside the memory and strictly rising, no cell equal to
what an unlisted address reads as. -/
abbrev Memory.wf (m : Memory) : Prop :=
  m.Pairwise (fun c d => c.1 < d.1) ∧ ∀ c ∈ m, c.1 < Config.memSize ∧ c.2 ≠ Config.cellReset

/-- The byte at an address; an unlisted address holds the reset contents (R21, R46). -/
def Memory.read (a : Nat) : Memory → Byte
  | [] => Config.cellReset
  | (b, w) :: m => if a = b then w else Memory.read a m

/-- Remove a cell, which then reads as the reset contents. -/
def Memory.erase (a : Nat) (m : Memory) : Memory := m.filter fun c => c.1 ≠ a

/-- List a cell at its place in the order of addresses. -/
def Memory.insert (a : Nat) (v : Byte) : Memory → Memory
  | [] => [(a, v)]
  | (b, w) :: m =>
    if a < b then (a, v) :: (b, w) :: m
    else if a = b then (a, v) :: m
    else (b, w) :: Memory.insert a v m

/-- Set one cell and no other (R47), keeping the canonical form: the reset contents are not listed. -/
def Memory.write (a : Nat) (v : Byte) (m : Memory) : Memory :=
  if v = Config.cellReset then Memory.erase a m else Memory.insert a v m

/-- `MemRead(a, 1)` (R46). An address is an 8-bit value, so every address exists (R45, R48). -/
def State.memRead (s : State) (a : Byte) : Byte := Memory.read a.toNat s.mem

/-- `MemWrite(a, 1, v)` (R47). -/
def State.memWrite (s : State) (a v : Byte) : State := { s with mem := Memory.write a.toNat v s.mem }

/-- `x[i]`: no register is hardwired, R7 is read like any other (R9, R24). -/
def State.reg (s : State) (r : Reg) : Byte := s.x[r]

/-- `x[i] <- v`: no register is hardwired, R7 is written like any other (R9, R24). -/
def State.setReg (s : State) (r : Reg) (v : Byte) : State := { s with x := s.x.set r v }

/-- `SP`, another name for `x[7]` (R9, R25). -/
def State.sp (s : State) : Byte := s.reg Config.spIndex

/-- `SP <- v`, another name for `x[7] <- v` (R9, R25). -/
def State.setSp (s : State) (v : Byte) : State := s.setReg Config.spIndex v

/-- `Emit(v)`: append to the output sequence (R9, R38). -/
def State.emit (s : State) (v : Byte) : State := { s with out := s.out ++ [v] }

/-- `pc <- t` (R9). -/
def State.setPc (s : State) (t : Byte) : State := { s with pc := t }

/-- `status <- t` (R9). -/
def State.setStatus (s : State) (t : Status) : State := { s with status := t }

/-- The cause codes of R160. -/
def FaultCause.code : FaultCause → Byte
  | .illegalOpcode => 1#8
  | .illegalRegister => 2#8
  | .operandRange => 3#8
  | .pcOverflow => 4#8
  | .stackOverflow => 5#8
  | .stackUnderflow => 6#8
  | .aluBadOp => 7#8

/-- Fault entry (R171): the cause code and the address of the faulting instruction's opcode are
recorded, the status becomes FAULTED, nothing else changes and control goes nowhere. -/
def State.raise (s : State) (c : FaultCause) : State :=
  { s with faultCause := c.code, faultPc := s.pc, status := .faulted }

/-- `raise Fault(c)`: fault entry, then the end of the step (R172). -/
def raiseFault (c : FaultCause) (s : State) : Result := .next (s.raise c)

/-- Stage 5 for an instruction of `len` bytes whose effects are committed: the advance (R96), or
PC_OVERFLOW with the effects kept and `pc` unchanged (R97). -/
def retire (len : Nat) (s : State) : Result :=
  if pcOverflows s.pc len then raiseFault .pcOverflow s
  else .next (s.setPc (s.pc + BitVec.ofNat 8 len))

end Sys2Proof.Machine
end

