-- ==== Sys2Proof/Machine/Operands.lean ====
section
/-! DEFINITION. Operand forms: a register operand with its index check (spec/30_encoding.md rule R69,
spec/40_cycle.md rule R94), the immediate (R70), and the one addressing mode, register-indirect through
SP with pre-decrement (PUSH) and post-increment (POP) (spec/44_stack.md). -/

namespace Sys2Proof.Machine

/-- The register a whole operand byte names, if it names one; the byte is not masked (R69). -/
def regIndex? (b : Byte) : Option Reg :=
  if h : b.toNat < 8 then some ⟨b.toNat, h⟩ else none

/-- Stage 3b for one register operand: go on with the register it names, or raise ILLEGAL_REGISTER
(R94). -/
def withReg (b : Byte) (s : State) (go : Reg → Result) : Result :=
  match regIndex? b with
  | some r => go r
  | none => raiseFault .illegalRegister s

/-- LDI's immediate: the whole byte, `zext_8(B2) = B2` (R70). -/
def immediate (b2 : Byte) : Byte := b2

/-- PUSH's effective address: the decremented SP (R140). -/
def pushAddress (sp0 : Byte) : Byte := sp0 - 1#8

/-- POP's effective address: SP before the instruction (R145). -/
def popAddress (sp0 : Byte) : Byte := sp0

end Sys2Proof.Machine
end

