-- ==== Sys2Proof/Machine/Alu.lean ====
section
/-! DEFINITION. The ALU and MUL (spec/43_alu.md). -/

namespace Sys2Proof.Machine

/-- The operation names the ALU is called with (R125). `other` stands for any name but ADD and MUL
(R128). -/
inductive AluOp
  | add | mul | other
  deriving DecidableEq, Repr

/-- What an ALU operation computes: the exact sum or product of the unsigned operands, reduced modulo
256 (R126, R127); no result for an operation the ALU does not have (R128). -/
def aluResult (op : AluOp) (va vb : Byte) : Option Byte :=
  match op with
  | .add => some (BitVec.ofNat 8 (va.toNat + vb.toNat))
  | .mul => some (BitVec.ofNat 8 (va.toNat * vb.toNat))
  | .other => none

/-- `ALU(op, a, b)` (R125): "it mutates the first register in place using the second register's value
as the operand"; none where the operation is neither ADD nor MUL (R128). -/
def alu (op : AluOp) (a b : Reg) (s : State) : Option State :=
  (aluResult op (s.reg a) (s.reg b)).map fun v => s.setReg a v

/-- Commit an ALU operation and retire, or raise the reserved fault ALU_BAD_OP (R128, R167). -/
def aluRetire (op : AluOp) (len : Nat) (a b : Reg) (s : State) : Result :=
  match alu op a b s with
  | some t => retire len t
  | none => raiseFault .aluBadOp s

/-- MUL a, b (R130): `x[a] <- (x[a] * x[b]) mod 256`. B1 is checked before B2 (R94). MUL is the only
instruction that calls the ALU, and always with `mul` (R103), so ALU_BAD_OP is never raised. -/
def execMul (a b : Byte) (s : State) : Result :=
  withReg a s fun a => withReg b s fun b => aluRetire .mul (Opcode.length .mul) a b s

end Sys2Proof.Machine
end

