-- ==== Sys2Proof/Machine/Data.lean ====
section
/-! DEFINITION. Data movement: LDI (spec/42_data.md). -/

namespace Sys2Proof.Machine

/-- LDI r, imm (R120): `x[r] <- imm`. -/
def execLdi (r imm : Byte) (s : State) : Result :=
  withReg r s fun r => retire (Opcode.length .ldi) (s.setReg r (immediate imm))

end Sys2Proof.Machine
end

