-- ==== Sys2Proof/Machine/Stack.lean ====
section
/-! DEFINITION. The stack instructions PUSH and POP (spec/44_stack.md). -/

namespace Sys2Proof.Machine

/-- PUSH's commit: SP is decremented, the source is read AFTER that, and stored at the new SP (R140).
So PUSH R7 stores the decremented SP. -/
def State.pushed (s : State) (r : Reg) : State :=
  let s1 := s.setSp (pushAddress s.sp)
  s1.memWrite s1.sp (s1.reg r)

/-- SP as it stands after POP's `x[r] <- v` and before its increment (R145). -/
def popSp (s : State) (r : Reg) : Byte :=
  if r = Config.spIndex then s.memRead (popAddress s.sp) else s.sp

/-- POP's commit: the byte at SP goes to `x[r]`, then SP, as that write left it, is incremented (R145). -/
def State.popped (s : State) (r : Reg) : State :=
  (s.setReg r (s.memRead (popAddress s.sp))).setSp (popSp s r + 1#8)

/-- PUSH r (R140, R141): STACK_OVERFLOW at SP = 0 before anything is written. -/
def execPush (r : Byte) (s : State) : Result :=
  withReg r s fun r =>
    if stackOverflows s.sp then raiseFault .stackOverflow s
    else retire (Opcode.length .push) (s.pushed r)

/-- POP r (R145, R146): STACK_UNDERFLOW where the SP to increment is 255, before anything is written. -/
def execPop (r : Byte) (s : State) : Result :=
  withReg r s fun r =>
    if stackUnderflows (popSp s r) then raiseFault .stackUnderflow s
    else retire (Opcode.length .pop) (s.popped r)

end Sys2Proof.Machine
end

