-- ==== Sys2Proof/Machine/System.lean ====
section
/-! DEFINITION. The system and output instructions HLT and PRN (spec/41_system.md). -/

namespace Sys2Proof.Machine

/-- HLT (R110): the status becomes HALTED; `pc` is not advanced (R96). -/
def execHlt (s : State) : Result := .next (s.setStatus .halted)

/-- PRN r (R112): emit `x[r]`. -/
def execPrn (r : Byte) (s : State) : Result :=
  withReg r s fun r => retire (Opcode.length .prn) (s.emit (s.reg r))

end Sys2Proof.Machine
end

