-- ==== Sys2Proof/Machine/Dispatch.lean ====
section
/-! DEFINITION. Stages 3b, 4 and 5 of a step (spec/40_cycle.md rules R94 to R97): one arm per
instruction, each one call of its meaning. -/

namespace Sys2Proof.Machine

def exec (i : Instr) (s : State) : Host.Outcome State Fault Refusal :=
  match i with
  | .hlt => Sys2Proof.Machine.execHlt s
  | .ldi r imm => Sys2Proof.Machine.execLdi r imm s
  | .prn r => Sys2Proof.Machine.execPrn r s
  | .mul a b => Sys2Proof.Machine.execMul a b s
  | .push r => Sys2Proof.Machine.execPush r s
  | .pop r => Sys2Proof.Machine.execPop r s

end Sys2Proof.Machine
end

