-- ==== Sys2Proof/Machine/Fetch.lean ====
section
/-! DEFINITION. The fetch stages and the whole step of a RUNNING machine (spec/40_cycle.md rules R91 to
R98), and placing an instruction's bytes where the next step fetches them. -/

namespace Sys2Proof.Machine

/-- Stage 1 (R91): `IR <- MemRead(pc, 1)`. -/
def State.fetchOpcode (s : State) : State := { s with ir := s.memRead s.pc }

/-- Put a fetched operand byte in its latch (R37, R93). -/
def State.latchOperand (s : State) (k : Nat) (v : Byte) : State :=
  if k = 1 then { s with b1 := v } else { s with b2 := v }

/-- Stage 3 for one operand (R93): OPERAND_RANGE where `pc + k > 255`, else `Bk <- MemRead(pc + k, 1)`.
An error holds the state that fault entry leaves. -/
def fetchOperand (k : Nat) (s : State) : Except State State :=
  if operandOutOfRange s.pc k then .error (s.raise .operandRange)
  else .ok (s.latchOperand k (s.memRead (s.pc + BitVec.ofNat 8 k)))

/-- Stage 3 (R93): the operands B1 to B`n`, in that order. -/
def fetchOperands : Nat → State → Except State State
  | 0, s => .ok s
  | n + 1, s =>
    match fetchOperands n s with
    | .error t => .error t
    | .ok t => fetchOperand (n + 1) t

/-- One step of a RUNNING machine (R98): fetch the opcode, decode it or raise ILLEGAL_OPCODE, fetch
its operands, then run the instruction that IR, B1 and B2 hold. -/
def cycle (s : State) : Result :=
  let s1 := s.fetchOpcode
  match Opcode.ofByte s1.ir with
  | none => raiseFault .illegalOpcode s1
  | some op =>
    match fetchOperands op.operandCount s1 with
    | .error t => .next t
    | .ok t => exec (op.build t.b1 t.b2) t

/-- Store bytes at rising addresses from `a`; a byte whose address is above 255 has no cell. -/
def Memory.storeBytes (a : Nat) : List Byte → Memory → Memory
  | [], m => m
  | b :: bs, m =>
    Memory.storeBytes (a + 1) bs (if a < Config.memSize then Memory.write a b m else m)

/-- Place bytes where the next step fetches, and have the machine RUNNING so that there is a next step
(R90; log entry 4). -/
def State.placeFetch (s : State) (bytes : List Byte) : State :=
  { s with mem := Memory.storeBytes s.pc.toNat bytes s.mem, status := .running }

/-- The bytes at `pc`, `pc + 1`, … that exist, at most `n` of them: what the fetch stages can reach. -/
def State.codeBytes (s : State) (n : Nat) : List Byte :=
  ((List.range n).filter fun k => s.pc.toNat + k < Config.memSize).map fun k =>
    s.memRead (s.pc + BitVec.ofNat 8 k)

/-- The latches as they stand once the bytes of an instruction are fetched (R36, R37). -/
def State.latched (s : State) : List Byte → State
  | [] => s
  | [v0] => { s with ir := v0 }
  | [v0, v1] => { s with ir := v0, b1 := v1 }
  | v0 :: v1 :: v2 :: _ => { s with ir := v0, b1 := v1, b2 := v2 }

end Sys2Proof.Machine
end

