-- ==== Sys2Proof/Machine/Step.lean ====
section
/-! DEFINITION. One step of the machine (spec/40_cycle.md rule R90) and the placing of an opcode-table
word where the next step fetches it. -/

namespace Sys2Proof.Machine

/-- A step exists only when the status is RUNNING (R90); otherwise the machine stops by the name of
the status it is in. -/
def step (s : State) : Host.Outcome State Fault Refusal :=
  match s.status with
  | .running => cycle s
  | .idle => .fault .notStarted
  | .halted => .fault .runHalted
  | .faulted => .fault .runFaulted

/-- `s` with an opcode-table word's three bytes at `pc` and the status RUNNING (log entry 4). -/
def State.withFetchWord (s : State) (nbits w : Nat) : State := s.placeFetch (tableBytes nbits w)

end Sys2Proof.Machine
end

