-- ==== Sys2Proof/Machine/HostPort.lean ====
section
/-! DEFINITION. The host-facing ports (spec/70_reset_and_hazards.md rules R190, R193 to R198): reset,
load, start and the read-back ports, as actions on the state. They are the only things beside a step
that change a state. -/

namespace Sys2Proof.Machine

/-- A host action on a port that changes state (R197). -/
inductive HostAction
  | reset
  | load (addr byte : Byte)
  | start
  deriving DecidableEq, Repr

/-- What a host action does (R190, R195, R197). Load and start have no effect outside IDLE. -/
def hostAct (a : HostAction) (s : State) : State :=
  match a with
  | .reset => State.reset
  | .load addr byte => if s.status = .idle then s.memWrite addr byte else s
  | .start => if s.status = .idle then s.setStatus .running else s

/-- Load a sequence of bytes from address `a` upward, one `load` action a byte (R193, R197). -/
def loadFrom (a : Nat) : List Byte → State → State
  | [], s => s
  | b :: bs, s => loadFrom (a + 1) bs (hostAct (.load (BitVec.ofNat 8 a) b) s)

/-- Place a program image at `LOAD_BASE` (R193); none where the host interface refuses it because it
has more than 256 bytes (R194). -/
def loadImage (image : List Byte) (s : State) : Option State :=
  if image.length ≤ Config.memSize then some (loadFrom Config.loadBase image s) else none

/-- From reset, load an image and start the run; a refused image leaves the CORE IDLE with nothing
loaded (R190, R193 to R195). -/
def launch (image : List Byte) : State :=
  match loadImage image State.reset with
  | some s => hostAct .start s
  | none => State.reset

/-- `read_mem(addr)`: allowed in every status but RUNNING (R197, R198). -/
def readMemPort (addr : Byte) (s : State) : Option Byte :=
  if s.status = .running then none else some (s.memRead addr)

/-- `read_reg(i)`: allowed in every status but RUNNING (R197, R198). -/
def readRegPort (i : Reg) (s : State) : Option Byte :=
  if s.status = .running then none else some (s.reg i)

/-- `read_pc`: allowed in every status but RUNNING (R197, R198). -/
def readPcPort (s : State) : Option Byte :=
  if s.status = .running then none else some s.pc

/-- The `status`, `fault_cause` and `fault_pc` ports, readable in any status (R197). -/
def statusPorts (s : State) : Status × Byte × Byte := (s.status, s.faultCause, s.faultPc)

/-- The `out` port (R113, R197): the values a step from `s` to `t` delivers, in order. -/
def outPort (s t : State) : List Byte := t.out.drop s.out.length

end Sys2Proof.Machine
end

