-- ==== Sys2Proof/Machine/Text.lean ====
section
/-! DEFINITION. The two texts around the CORE: the program image text a host turns into bytes
(spec/30_encoding.md rule R78) and the assembly spelling of an instruction (rules R76, R77). Neither is
part of the machine: nothing in a step uses this file. A text is a list of characters. -/

namespace Sys2Proof.Machine

/-- Drop white space at both ends. -/
def trimLine (line : List Char) : List Char :=
  (((line.dropWhile Char.isWhitespace).reverse).dropWhile Char.isWhitespace).reverse

/-- What is left of a line before its `#` comment, trimmed (R78). -/
def stripComment (line : List Char) : List Char := trimLine (line.takeWhile (· ≠ '#'))

/-- The value of binary digits, the first the most significant (R7). -/
def binaryValue : List Char → Nat → Option Nat
  | [], acc => some acc
  | c :: cs, acc =>
    if c = '0' then binaryValue cs (2 * acc)
    else if c = '1' then binaryValue cs (2 * acc + 1)
    else none

/-- The byte of one image line: "exactly 8 binary digits"; none for a blank, comment-only or malformed
line, which is skipped (R78). -/
def imageLine (line : List Char) : Option Byte :=
  let digits := stripComment line
  if digits.length = 8 then (binaryValue digits 0).map (BitVec.ofNat 8) else none

/-- The bytes of a program image text, in line order (R78). -/
def imageOfText (text : List Char) : List Byte := (text.splitOn '\n').filterMap imageLine

/-- The mnemonic of an opcode (R71). -/
def mnemonic : Opcode → List Char
  | .hlt => ['H', 'L', 'T']
  | .ldi => ['L', 'D', 'I']
  | .prn => ['P', 'R', 'N']
  | .mul => ['M', 'U', 'L']
  | .push => ['P', 'U', 'S', 'H']
  | .pop => ['P', 'O', 'P']

/-- A register operand in its canonical form `R<n>` (R76). -/
def regText (r : Byte) : List Char := 'R' :: Nat.toDigits 10 r.toNat

/-- The canonical spelling of an instruction: mnemonic, then the operands separated by spaces, the
immediate in decimal (R76). -/
def assembly (i : Instr) : List Char :=
  mnemonic i.opcode ++
    match i with
    | .hlt => []
    | .ldi r imm => ' ' :: regText r ++ ' ' :: Nat.toDigits 10 imm.toNat
    | .prn r => ' ' :: regText r
    | .mul a b => ' ' :: regText a ++ ' ' :: regText b
    | .push r => ' ' :: regText r
    | .pop r => ' ' :: regText r

/-- The value of one digit in a base up to 16. -/
def digitValue (base : Nat) (c : Char) : Option Nat :=
  let v :=
    if '0' ≤ c ∧ c ≤ '9' then c.toNat - '0'.toNat
    else if 'a' ≤ c ∧ c ≤ 'f' then c.toNat - 'a'.toNat + 10
    else if 'A' ≤ c ∧ c ≤ 'F' then c.toNat - 'A'.toNat + 10
    else base
  if v < base then some v else none

/-- The value of digits in a base, the first the most significant. -/
def digitsValue (base : Nat) : List Char → Nat → Option Nat
  | [], acc => some acc
  | c :: cs, acc => (digitValue base c).bind fun d => digitsValue base cs (base * acc + d)

/-- A number of at least one digit, none above `top`. -/
def number (base top : Nat) (digits : List Char) : Option Byte :=
  if digits = [] then none
  else (digitsValue base digits 0).bind fun v => if v ≤ top then some (BitVec.ofNat 8 v) else none

/-- A register operand, `R<n>` or a bare decimal, with n in 0 to 7 (R76). -/
def parseReg : List Char → Option Byte
  | 'R' :: digits => number 10 7 digits
  | digits => number 10 7 digits

/-- An immediate, decimal or `0x` hexadecimal (R76). -/
def parseImmediate : List Char → Option Byte
  | '0' :: 'x' :: digits => number 16 255 digits
  | digits => number 10 255 digits

/-- The opcode a mnemonic names; there are no pseudo-instructions (R77). -/
def parseMnemonic (word : List Char) : Option Opcode :=
  [Opcode.hlt, .ldi, .prn, .mul, .push, .pop].find? fun op => mnemonic op = word

/-- Assemble one instruction spelled as R76 has it: words separated by spaces. -/
def assemble (text : List Char) : Option Instr :=
  match (text.splitOn ' ').filter (· ≠ []) with
  | [] => none
  | word :: operands =>
    (parseMnemonic word).bind fun op =>
      match op.format, operands with
      | .n, [] => some (op.build 0#8 0#8)
      | .r, [r] => (parseReg r).map fun r => op.build r 0#8
      | .ri, [r, imm] => (parseReg r).bind fun r => (parseImmediate imm).map fun v => op.build r v
      | .rr, [a, b] => (parseReg a).bind fun a => (parseReg b).map fun b => op.build a b
      | _, _ => none

/-- The bytes of a sequence of instructions separated by `;` (R76). -/
def assembleProgram (text : List Char) : Option (List Byte) :=
  ((text.splitOn ';').mapM assemble).map fun instrs => instrs.flatMap encode

end Sys2Proof.Machine
end

