-- ==== Sys2Proof/Safety.lean ====
section
/-! DEFINITION. The vocabulary of the claims: what a step leaves unchanged, what fault entry leaves, the
invariant of the machine, the end of a run, and the spec's table of fault conditions written on the
bytes in memory. -/

namespace Sys2Proof.Machine

/-- The operand byte that names a register (R69). -/
def regByte (r : Reg) : Byte := BitVec.ofNat 8 r.val

/-- Every byte of memory reads as before. -/
def SameMemory (s t : State) : Prop := ∀ a : Byte, t.memRead a = s.memRead a

/-- Every byte of memory but one address reads as before. -/
def SameMemoryBut (a : Byte) (s t : State) : Prop := ∀ b : Byte, b ≠ a → t.memRead b = s.memRead b

/-- Every register but the listed ones is unchanged. -/
def SameRegsBut (rs : List Reg) (s t : State) : Prop := ∀ q : Reg, q ∉ rs → t.reg q = s.reg q

/-- The run status and the fault record are unchanged. -/
def SameControl (s t : State) : Prop :=
  t.status = s.status ∧ t.faultCause = s.faultCause ∧ t.faultPc = s.faultPc

/-- The hidden IR, B1 and B2 are unchanged. -/
def SameLatches (s t : State) : Prop := t.ir = s.ir ∧ t.b1 = s.b1 ∧ t.b2 = s.b2

/-- What fault entry records (R171), with the cause code of R160: the status, the code, and the address
of the instruction in `s` that faulted, which `pc` keeps. -/
def FaultRecorded (code : Byte) (s t : State) : Prop :=
  t.status = .faulted ∧ t.faultCause = code ∧ t.faultPc = s.pc ∧ t.pc = s.pc

/-- A fault raised before the commit: it is recorded, and memory, registers and output are as before
(R99, R173). -/
def PreciseFault (code : Byte) (s t : State) : Prop :=
  FaultRecorded code s t ∧ SameMemory s t ∧ SameRegsBut [] s t ∧ t.out = s.out

/-- The 8 binary digits of a byte, bit 7 first (R7, R78). -/
def binaryDigits (b : Byte) : List Char :=
  (List.range 8).map fun k => if b.getLsbD (7 - k) then '1' else '0'

/-- White space only, or nothing (R78). -/
def IsBlank (text : List Char) : Prop := ∀ c ∈ text, c.isWhitespace = true

/-- A run has ended: the status is HALTED or FAULTED (R102). -/
def State.Ended (s : State) : Prop := s.status = .halted ∨ s.status = .faulted

/-- The machine's invariant: memory is canonical; in FAULTED the cause is one of the six that can be
raised and the record names the instruction `pc` is at; in every other status there is no record
(R34, R160, R164). -/
def State.Inv (s : State) : Prop :=
  Memory.wf s.mem ∧
  (s.status = .faulted → 1 ≤ s.faultCause.toNat ∧ s.faultCause.toNat ≤ 6 ∧ s.faultPc = s.pc) ∧
  (s.status ≠ .faulted → s.faultCause = 0#8 ∧ s.faultPc = 0#8)

/-- The operand count of an opcode byte, written out from R71 and R98; none for an illegal byte. -/
def tableOperandCount (b0 : Byte) : Option Nat :=
  if b0 = 0x01#8 then some 0
  else if b0 = 0x47#8 ∨ b0 = 0x45#8 ∨ b0 = 0x46#8 then some 1
  else if b0 = 0x82#8 ∨ b0 = 0xA2#8 then some 2
  else none

/-- The fault a step from a RUNNING state reports, if any: "the first that applies in this order" of
R170, each condition written on the bytes in memory and the SP, none through the model's decoder. -/
def tableFault (s : State) : Option Byte :=
  let b0 := s.memRead s.pc
  let b1 := s.memRead (s.pc + 1#8)
  let b2 := s.memRead (s.pc + 2#8)
  match tableOperandCount b0 with
  | none => some 1#8
  | some n =>
    if 255 < s.pc.toNat + n then some 3#8
    else if 1 ≤ n ∧ 7 < b1.toNat then some 2#8
    else if b0 = 0xA2#8 ∧ 7 < b2.toNat then some 2#8
    else if b0 = 0x45#8 ∧ s.reg 7 = 0#8 then some 5#8
    else if b0 = 0x46#8 ∧ (if b1 = 7#8 then s.memRead (s.reg 7) else s.reg 7) = 255#8 then some 6#8
    else if b0 ≠ 0x01#8 ∧ 255 < s.pc.toNat + 1 + n then some 4#8
    else none

end Sys2Proof.Machine
end

