-- ==== Sys2Proof/Certificates/Slice0/Obligations.lean ====
section
/-! DEFINITION. The statements for the provers, from the numbered rules of spec/. A register operand is
written `regByte q` for a register q, so a statement over every q covers every index byte the spec lets
name a register (R69), R7 among them; the index bytes above 7 have statements of their own. Cause codes
and opcodes are written as numerals, as R160 and R71 give them. -/

open Sys2Proof Sys2Proof.Machine

/-! ## Encoding -/

/-- The opcode map of R71: each of the six opcode bytes, written in binary as the table has it, with its
operand bytes decodes to its instruction, whatever the operand bytes are and whatever follows; any other
first byte is refused by name. -/
def Obligations.OpcodeMapDecodes : Prop :=
  ∀ (p q : Byte) (rest : List Byte),
    decode (0b00000001#8 :: rest) = .ok (.hlt, rest) ∧
    decode (0b10000010#8 :: p :: q :: rest) = .ok (.ldi p q, rest) ∧
    decode (0b01000111#8 :: p :: rest) = .ok (.prn p, rest) ∧
    decode (0b10100010#8 :: p :: q :: rest) = .ok (.mul p q, rest) ∧
    decode (0b01000101#8 :: p :: rest) = .ok (.push p, rest) ∧
    decode (0b01000110#8 :: p :: rest) = .ok (.pop p, rest) ∧
    ∀ b0 : Byte, b0 ∉ [0x01#8, 0x82#8, 0x47#8, 0xA2#8, 0x45#8, 0x46#8] →
      decode (b0 :: rest) = .error .illegalOpcode

/-- Decoding and encoding agree, both ways (R65, R66, R71, R74): bytes decode to an instruction i with
`rest` left over exactly where they are i's encoding followed by `rest`. So decoding an encoded
instruction gives it back with every operand byte, for every instruction (an index byte above 7
included), and no instruction has a second encoding. -/
def Obligations.DecodeAndEncodeAgree : Prop :=
  ∀ (bytes rest : List Byte) (i : Instr), decode bytes = .ok (i, rest) ↔ bytes = encode i ++ rest

/-- An instruction's length is known from its opcode byte alone: with as many operand bytes as the table
gives the opcode (R71) it decodes and takes exactly those, with fewer it is refused as truncated
(R65, R72). -/
def Obligations.LengthIsKnownFromTheOpcode : Prop :=
  ∀ (b0 : Byte) (n : Nat) (operands : List Byte), tableOperandCount b0 = some n →
    if n ≤ operands.length then ∃ i, decode (b0 :: operands) = .ok (i, operands.drop n)
    else decode (b0 :: operands) = .error .truncated

/-- Assembling the canonical spelling of a well-formed instruction gives it back (R76; D23). -/
def Obligations.AssemblyReadsBack : Prop :=
  ∀ i : Instr, i.WellFormed → assemble (assembly i) = some i

/-- Program image text (R78). A line gives byte b exactly where it is the 8 binary digits of b, bit 7
first, with any run of white space, or none, before and after them, and then nothing or a `#` with any
comment behind it. A line of any other form (blank, comment only, malformed) gives none. The bytes of a
text are those of its lines, in line order. What counts as white space and as a line end is the model's
(log entry 10). -/
def Obligations.ImageLineGivesItsByte : Prop :=
  (∀ (line : List Char) (b : Byte), imageLine line = some b ↔
    ∃ before behind rest : List Char, IsBlank before ∧ IsBlank behind ∧
      (rest = [] ∨ ∃ comment, rest = '#' :: comment) ∧
      line = before ++ binaryDigits b ++ behind ++ rest) ∧
  (∀ line : List Char,
    (¬ ∃ (b : Byte) (before behind rest : List Char), IsBlank before ∧ IsBlank behind ∧
      (rest = [] ∨ ∃ comment, rest = '#' :: comment) ∧
      line = before ++ binaryDigits b ++ behind ++ rest) →
    imageLine line = none) ∧
  (∀ lines : List (List Char), lines ≠ [] → (∀ line ∈ lines, '\n' ∉ line) →
    imageOfText (['\n'].intercalate lines) = lines.filterMap imageLine)

/-! ## The step -/

/-- A step runs the decoded instruction: where the bytes at `pc` that exist (at most three) decode to i,
the step of a RUNNING machine is `exec i` of the state whose IR, B1 and B2 hold the fetched bytes. -/
def Obligations.StepRunsTheDecodedInstruction : Prop :=
  ∀ (s : State) (i : Instr) (rest : List Byte), s.status = .running →
    decode (s.codeBytes 3) = .ok (i, rest) → step s = exec i (s.latched (encode i))

/-- A step has a next state exactly in RUNNING, and otherwise there is no step; outside RUNNING only reset,
or load and start in IDLE, change the state (R90, R10). That nothing is ever refused is the model's choice
(log entry 1): D11 and R112 have a model refuse a read of an unwritten R0 to R6. -/
def Obligations.StepExistsExactlyInRunning : Prop :=
  (∀ s : State, (∃ t, step s = .next t) ↔ s.status = .running) ∧
  (∀ (s : State) (r : Refusal), step s ≠ .refused r) ∧
  (∀ (s : State) (a : HostAction), s.status ≠ .running → a ≠ .reset → hostAct a s ≠ s →
    s.status = .idle ∧ (a = .start ∨ ∃ addr byte, a = .load addr byte))

/-- R96: where no fault condition applies (the next address exists among them), HLT leaves `pc` and the
others advance it by 1 plus the operand count, on integers: 2 for PRN, PUSH and POP, 3 for LDI and MUL. -/
def Obligations.PcAdvancesByTheLength : Prop :=
  ∀ s : State, s.status = .running → tableFault s = none → ∃ t, step s = .next t ∧
    ((s.memRead s.pc = 0x01#8 ∧ t.status = .halted ∧ t.pc = s.pc) ∨
     (s.memRead s.pc ∈ [0x47#8, 0x45#8, 0x46#8] ∧ t.status = .running ∧ t.pc.toNat = s.pc.toNat + 2) ∨
     (s.memRead s.pc ∈ [0x82#8, 0xA2#8] ∧ t.status = .running ∧ t.pc.toNat = s.pc.toNat + 3))

/-- HLT, and only HLT, ends a run normally, and every other step without a fault leaves it RUNNING
(R102, R111; R111 is marked as derived by the spec). -/
def Obligations.OnlyHltEndsARunNormally : Prop :=
  ∀ s t : State, step s = .next t →
    (t.status = .halted ↔ s.memRead s.pc = 0x01#8) ∧
    (t.status = .running ∨ t.status = .halted ∨ t.status = .faulted)

/-- The memory frame of every step (R21, R53): only PUSH writes memory, one byte, at the decremented
SP. -/
def Obligations.OnlyPushWritesMemory : Prop :=
  ∀ s t : State, step s = .next t →
    (s.memRead s.pc ≠ 0x45#8 → SameMemory s t) ∧
    (s.memRead s.pc = 0x45#8 → SameMemoryBut (s.reg 7 - 1#8) s t)

/-- The register frame of every step (the "writes" column of R27): a register changes only where it is
the destination of LDI, MUL or POP, or R7 in PUSH or POP. -/
def Obligations.RegistersChangeOnlyWhereNamed : Prop :=
  ∀ (s t : State) (q : Reg), step s = .next t → t.reg q ≠ s.reg q →
    (s.memRead s.pc ∈ [0x82#8, 0xA2#8, 0x46#8] ∧ s.memRead (s.pc + 1#8) = regByte q) ∨
    (s.memRead s.pc ∈ [0x45#8, 0x46#8] ∧ q = 7)

/-- Output (R38, R113): a step appends to `out` nothing, or, only in PRN, one value; and what `out`
holds before has no influence on anything else. -/
def Obligations.OutputIsAppendedAndNeverRead : Prop :=
  ∀ s t : State, step s = .next t →
    ∃ w : List Byte, t.out = s.out ++ w ∧
      (w = [] ∨ ∃ v, w = [v] ∧ s.memRead s.pc = 0x47#8) ∧
      ∀ o : List Byte, step { s with out := o } = .next { t with out := o ++ w }

/-- IR is loaded at the start of every step (R36), and no step reads what the latches held before it:
steps from states that differ only in IR, B1 and B2 differ at most in B1 and B2. For B1 and B2 this is R37,
which the spec marks as its own inference; that the latches are fields of State, and keep a value a step
does not load, is the model's (log entries 2 and 9). -/
def Obligations.LatchesAreUnobservable : Prop :=
  ∀ s t : State, step s = .next t →
    t.ir = s.memRead s.pc ∧
    ∀ v0 v1 v2 : Byte, ∃ u, step { s with ir := v0, b1 := v1, b2 := v2 } = .next u ∧
      { u with b1 := t.b1, b2 := t.b2 } = t

/-- Fetch coherence (R60, derived by the spec): where a PUSH wrote the very byte the next instruction
starts at, the next step fetches the byte it wrote. -/
def Obligations.NextFetchSeesThePushedByte : Prop :=
  ∀ (s t u : State) (q : Reg), s.memRead s.pc = 0x45#8 → s.memRead (s.pc + 1#8) = regByte q →
    step s = .next t → t.status = .running → t.pc = s.reg 7 - 1#8 → step t = .next u →
    u.ir = if q = 7 then s.reg 7 - 1#8 else s.reg q

/-! ## The instructions complete -/

/-- HLT completes in every state: HALTED, and nothing else changes (41_system.md, R110). -/
def Obligations.HltCompletes : Prop :=
  ∀ s : State, ∃ t, exec .hlt s = .next t ∧ t.status = .halted ∧ t.pc = s.pc ∧
    t.faultCause = s.faultCause ∧ t.faultPc = s.faultPc ∧ SameRegsBut [] s t ∧ SameMemory s t ∧
    t.out = s.out ∧ SameLatches s t

/-- LDI completes for every register and immediate wherever its next address exists (42_data.md). -/
def Obligations.LdiCompletes : Prop :=
  ∀ (s : State) (q : Reg) (imm : Byte), s.pc.toNat + 3 ≤ 255 →
    ∃ t, exec (.ldi (regByte q) imm) s = .next t ∧ t.reg q = imm ∧ SameRegsBut [q] s t ∧
      t.pc.toNat = s.pc.toNat + 3 ∧ SameMemory s t ∧ t.out = s.out ∧ SameControl s t ∧ SameLatches s t

/-- PRN completes for every register wherever its next address exists, and emits exactly one value
(41_system.md). That it completes for an R0 to R6 that nothing has written since reset is the model's
choice (log entry 1): R112 and D11 have a model refuse that read. -/
def Obligations.PrnCompletes : Prop :=
  ∀ (s : State) (q : Reg), s.pc.toNat + 2 ≤ 255 →
    ∃ t, exec (.prn (regByte q)) s = .next t ∧ t.out = s.out ++ [s.reg q] ∧ SameRegsBut [] s t ∧
      t.pc.toNat = s.pc.toNat + 2 ∧ SameMemory s t ∧ SameControl s t ∧ SameLatches s t

/-- MUL completes for every two registers, equal or not, wherever its next address exists
(43_alu.md). That it completes for an R0 to R6 that nothing has written since reset is the model's choice
(log entry 1, against D11). -/
def Obligations.MulCompletes : Prop :=
  ∀ (s : State) (p q : Reg), s.pc.toNat + 3 ≤ 255 →
    ∃ t, exec (.mul (regByte p) (regByte q)) s = .next t ∧
      (t.reg p).toNat = (s.reg p).toNat * (s.reg q).toNat % 256 ∧ SameRegsBut [p] s t ∧
      t.pc.toNat = s.pc.toNat + 3 ∧ SameMemory s t ∧ t.out = s.out ∧ SameControl s t ∧ SameLatches s t

/-- PUSH completes for every register wherever SP is not 0 and its next address exists. The store goes
to `pushAddress SP`, the function the meaning uses, which is SP - 1; PUSH R7 stores the decremented SP
(44_stack.md). That it completes for an R0 to R6 that nothing has written since reset is the model's choice
(log entry 1, against D11). -/
def Obligations.PushCompletes : Prop :=
  ∀ (s : State) (q : Reg), s.pc.toNat + 2 ≤ 255 → s.reg 7 ≠ 0#8 →
    ∃ t, exec (.push (regByte q)) s = .next t ∧
      (pushAddress (s.reg 7)).toNat = (s.reg 7).toNat - 1 ∧
      t.reg 7 = pushAddress (s.reg 7) ∧ SameRegsBut [7] s t ∧
      t.memRead (pushAddress (s.reg 7)) = (if q = 7 then pushAddress (s.reg 7) else s.reg q) ∧
      SameMemoryBut (pushAddress (s.reg 7)) s t ∧
      t.pc.toNat = s.pc.toNat + 2 ∧ t.out = s.out ∧ SameControl s t ∧ SameLatches s t

/-- POP completes for every register wherever the SP to increment is not 255 and its next address
exists; POP R7 leaves the popped byte plus one in SP; memory is unchanged (44_stack.md). -/
def Obligations.PopCompletes : Prop :=
  ∀ (s : State) (q : Reg), s.pc.toNat + 2 ≤ 255 →
    (if q = 7 then s.memRead (s.reg 7) else s.reg 7) ≠ 255#8 →
    ∃ t, exec (.pop (regByte q)) s = .next t ∧
      (q ≠ 7 → t.reg q = s.memRead (s.reg 7) ∧ (t.reg 7).toNat = (s.reg 7).toNat + 1) ∧
      (q = 7 → (t.reg 7).toNat = (s.memRead (s.reg 7)).toNat + 1) ∧
      SameRegsBut [q, 7] s t ∧ SameMemory s t ∧
      t.pc.toNat = s.pc.toNat + 2 ∧ t.out = s.out ∧ SameControl s t ∧ SameLatches s t

/-! ## The instruction rules, whole, from the bytes in memory -/

/-- R110, HLT: the byte 0x01 at `pc`, 255 included, halts; `pc` keeps its address, and no register,
memory byte or output changes. -/
def Obligations.HltRule : Prop :=
  ∀ s : State, s.status = .running → s.memRead s.pc = 0x01#8 →
    ∃ t, step s = .next t ∧ t.status = .halted ∧ t.pc = s.pc ∧ SameRegsBut [] s t ∧ SameMemory s t ∧
      t.out = s.out ∧ t.faultCause = s.faultCause ∧ t.faultPc = s.faultPc

/-- R120, LDI: the bytes 0x82, r, imm at `pc`, with its three faults in the order they are checked. -/
def Obligations.LdiRule : Prop :=
  ∀ s : State, s.status = .running → s.memRead s.pc = 0x82#8 →
    ∃ t, step s = .next t ∧
      if 254 ≤ s.pc.toNat then PreciseFault 3#8 s t
      else if 7 < (s.memRead (s.pc + 1#8)).toNat then PreciseFault 2#8 s t
      else
        (∀ q : Reg, t.reg q =
          if regByte q = s.memRead (s.pc + 1#8) then s.memRead (s.pc + 2#8) else s.reg q) ∧
        SameMemory s t ∧ t.out = s.out ∧
        if s.pc.toNat = 253 then FaultRecorded 4#8 s t
        else t.pc.toNat = s.pc.toNat + 3 ∧ SameControl s t

/-- R112, PRN: the bytes 0x47, r at `pc`. The sentence of R112 that a model refuses a read of an
unwritten R0 to R6 is not followed (log entry 1), so this rests on the rule's other sentences. -/
def Obligations.PrnRule : Prop :=
  ∀ s : State, s.status = .running → s.memRead s.pc = 0x47#8 →
    ∃ t, step s = .next t ∧
      if s.pc.toNat = 255 then PreciseFault 3#8 s t
      else if 7 < (s.memRead (s.pc + 1#8)).toNat then PreciseFault 2#8 s t
      else
        (∃ q : Reg, regByte q = s.memRead (s.pc + 1#8) ∧ t.out = s.out ++ [s.reg q]) ∧
        SameRegsBut [] s t ∧ SameMemory s t ∧
        if s.pc.toNat = 254 then FaultRecorded 4#8 s t
        else t.pc.toNat = s.pc.toNat + 2 ∧ SameControl s t

/-- R130, MUL: the bytes 0xA2, a, b at `pc`. -/
def Obligations.MulRule : Prop :=
  ∀ s : State, s.status = .running → s.memRead s.pc = 0xA2#8 →
    ∃ t, step s = .next t ∧
      if 254 ≤ s.pc.toNat then PreciseFault 3#8 s t
      else if 7 < (s.memRead (s.pc + 1#8)).toNat then PreciseFault 2#8 s t
      else if 7 < (s.memRead (s.pc + 2#8)).toNat then PreciseFault 2#8 s t
      else
        (∃ p q : Reg, regByte p = s.memRead (s.pc + 1#8) ∧ regByte q = s.memRead (s.pc + 2#8) ∧
          (t.reg p).toNat = (s.reg p).toNat * (s.reg q).toNat % 256 ∧ SameRegsBut [p] s t) ∧
        SameMemory s t ∧ t.out = s.out ∧
        if s.pc.toNat = 253 then FaultRecorded 4#8 s t
        else t.pc.toNat = s.pc.toNat + 3 ∧ SameControl s t

/-- R140, PUSH: the bytes 0x45, r at `pc`; SP is decremented before the source is read, so PUSH R7
stores the decremented SP. -/
def Obligations.PushRule : Prop :=
  ∀ s : State, s.status = .running → s.memRead s.pc = 0x45#8 →
    ∃ t, step s = .next t ∧
      if s.pc.toNat = 255 then PreciseFault 3#8 s t
      else if 7 < (s.memRead (s.pc + 1#8)).toNat then PreciseFault 2#8 s t
      else if (s.reg 7).toNat = 0 then PreciseFault 5#8 s t
      else
        (t.reg 7).toNat = (s.reg 7).toNat - 1 ∧ SameRegsBut [7] s t ∧
        (∃ q : Reg, regByte q = s.memRead (s.pc + 1#8) ∧ t.memRead (t.reg 7) = t.reg q) ∧
        SameMemoryBut (t.reg 7) s t ∧ t.out = s.out ∧
        if s.pc.toNat = 254 then FaultRecorded 4#8 s t
        else t.pc.toNat = s.pc.toNat + 2 ∧ SameControl s t

/-- R145, POP: the bytes 0x46, r at `pc`; the read byte is written first and SP, as that write left it,
is incremented, so POP R7 leaves the popped byte plus one. -/
def Obligations.PopRule : Prop :=
  ∀ s : State, s.status = .running → s.memRead s.pc = 0x46#8 →
    let v := s.memRead (s.reg 7)
    let sp1 := if s.memRead (s.pc + 1#8) = 7#8 then v else s.reg 7
    ∃ t, step s = .next t ∧
      if s.pc.toNat = 255 then PreciseFault 3#8 s t
      else if 7 < (s.memRead (s.pc + 1#8)).toNat then PreciseFault 2#8 s t
      else if sp1.toNat = 255 then PreciseFault 6#8 s t
      else
        (t.reg 7).toNat = sp1.toNat + 1 ∧
        (∀ q : Reg, q ≠ 7 → t.reg q = if regByte q = s.memRead (s.pc + 1#8) then v else s.reg q) ∧
        SameMemory s t ∧ t.out = s.out ∧
        if s.pc.toNat = 254 then FaultRecorded 4#8 s t
        else t.pc.toNat = s.pc.toNat + 2 ∧ SameControl s t

/-! ## Faults -/

/-- R73 and R161: the 250 bytes of the five ranges are exactly the bytes with no opcode, fetching one
faults with cause 1 before any operand is fetched and before any other state changes, and a step that ends
FAULTED with cause 1 fetched such a byte. -/
def Obligations.IllegalOpcodeFaults : Prop :=
  (∀ b : Byte, tableOperandCount b = none ↔
    b.toNat = 0 ∨ (0x02 ≤ b.toNat ∧ b.toNat ≤ 0x44) ∨ (0x48 ≤ b.toNat ∧ b.toNat ≤ 0x81) ∨
    (0x83 ≤ b.toNat ∧ b.toNat ≤ 0xA1) ∨ 0xA3 ≤ b.toNat) ∧
  ((List.range 256).filter fun n => tableOperandCount (BitVec.ofNat 8 n) = none).length = 250 ∧
  (∀ s : State, s.status = .running → tableOperandCount (s.memRead s.pc) = none →
    ∃ t, step s = .next t ∧ PreciseFault 1#8 s t ∧ t.b1 = s.b1 ∧ t.b2 = s.b2) ∧
  (∀ s t : State, step s = .next t → t.status = .faulted → t.faultCause = 1#8 →
    tableOperandCount (s.memRead s.pc) = none)

/-- R163: a 2-byte instruction at 255, or a 3-byte one at 254 or 255, faults with cause 3. -/
def Obligations.OperandRangeFaults : Prop :=
  ∀ s : State, s.status = .running →
    (s.memRead s.pc ∈ [0x47#8, 0x45#8, 0x46#8] ∧ s.pc.toNat = 255) ∨
      (s.memRead s.pc ∈ [0x82#8, 0xA2#8] ∧ (s.pc.toNat = 254 ∨ s.pc.toNat = 255)) →
    ∃ t, step s = .next t ∧ PreciseFault 3#8 s t

/-- R162: an index byte above 7, B1 of any operand-bearing instruction or B2 of MUL, faults with cause
2 before the commit. -/
def Obligations.IllegalRegisterFaults : Prop :=
  ∀ (s : State) (r x : Byte) (i : Instr), 7 < r.toNat →
    i ∈ [.ldi r x, .prn r, .mul r x, .mul x r, .push r, .pop r] →
    ∃ t, exec i s = .next t ∧ PreciseFault 2#8 s t ∧ SameLatches s t

/-- R141 and R165: PUSH at SP = 0 faults with cause 5 and nothing is written. -/
def Obligations.PushAtZeroOverflows : Prop :=
  ∀ (s : State) (q : Reg), s.reg 7 = 0#8 →
    ∃ t, exec (.push (regByte q)) s = .next t ∧ PreciseFault 5#8 s t ∧ SameLatches s t

/-- R146 and R166: POP faults with cause 6, and no register is written, where `r` is not 7 and SP is
255, or `r` is 7 and the popped byte is 255. -/
def Obligations.PopAtTopUnderflows : Prop :=
  ∀ (s : State) (q : Reg), (q ≠ 7 ∧ s.reg 7 = 255#8) ∨ (q = 7 ∧ s.memRead (s.reg 7) = 255#8) →
    ∃ t, exec (.pop (regByte q)) s = .next t ∧ PreciseFault 6#8 s t ∧ SameLatches s t

/-- PC_OVERFLOW comes after the commit (R97, R164): where an instruction has no next address at its own
`pc`, and would retire at some other address `a` at which it has one, it has the same effects on memory,
registers and output as at `a`, and then faults with cause 4 with `pc` kept. -/
def Obligations.PcOverflowKeepsTheEffects : Prop :=
  ∀ (s u : State) (i : Instr) (a : Byte), s.status = .running → 255 < s.pc.toNat + i.opcode.length →
    a.toNat + i.opcode.length ≤ 255 → exec i (s.setPc a) = .next u → u.status = .running →
    ∃ t, exec i s = .next t ∧ FaultRecorded 4#8 s t ∧ t.mem = u.mem ∧ t.x = u.x ∧ t.out = u.out

/-- R170: a step from RUNNING reports the first fault that applies, in the order opcode, operand range,
register index, stack range, PC overflow, and none where none applies. -/
def Obligations.FirstFaultThatAppliesIsReported : Prop :=
  ∀ s : State, s.status = .running →
    ∃ t, step s = .next t ∧
      match tableFault s with
      | some c => FaultRecorded c s t
      | none => t.status ≠ .faulted ∧ t.faultCause = s.faultCause ∧ t.faultPc = s.faultPc

/-- R99: every fault but PC_OVERFLOW leaves memory, registers, `pc` and output as they were before the
step; PC_OVERFLOW leaves `pc`, and its effects are those of the complete instruction at `pc`. -/
def Obligations.FaultsArePrecise : Prop :=
  ∀ s t : State, step s = .next t → t.status = .faulted →
    (t.faultCause ≠ 4#8 → PreciseFault t.faultCause s t) ∧
    (t.faultCause = 4#8 → FaultRecorded 4#8 s t ∧
      ∃ i rest u, decode (s.codeBytes 3) = .ok (i, rest) ∧ exec i (s.setPc 0#8) = .next u ∧
        u.status = .running ∧ t.mem = u.mem ∧ t.x = u.x ∧ t.out = u.out)

/-! ## The ALU and memory -/

/-- R125 and R126: the ALU's MUL writes the low byte of the product to its first register and changes
nothing else; ADD (R127) likewise with the sum. -/
def Obligations.AluWritesTheLowByte : Prop :=
  ∀ (s : State) (p q : Reg),
    (∃ t, alu .mul p q s = some t ∧ (t.reg p).toNat = (s.reg p).toNat * (s.reg q).toNat % 256 ∧
      SameRegsBut [p] s t ∧ { t with x := s.x } = s) ∧
    (∃ t, alu .add p q s = some t ∧ (t.reg p).toNat = ((s.reg p).toNat + (s.reg q).toNat) % 256 ∧
      SameRegsBut [p] s t ∧ { t with x := s.x } = s)

/-- No instruction and no step ever raises the reserved fault 7 (R167). That the ALU called with an
operation other than ADD and MUL takes it is the model's reading (log entry 8): R128 and R167 reserve the
code and say it is never raised. -/
def Obligations.AluBadOpIsNeverRaised : Prop :=
  (∀ (s : State) (len : Nat) (p q : Reg),
    ∃ t, aluRetire .other len p q s = .next t ∧ PreciseFault 7#8 s t) ∧
  (∀ (i : Instr) (s t : State), exec i s = .next t → t.faultCause = 7#8 → s.faultCause = 7#8) ∧
  (∀ s t : State, step s = .next t → t.faultCause = 7#8 → s.faultCause = 7#8)

/-- R47: a write sets its cell and nothing else, whatever the memory lists. -/
def Obligations.MemWriteSetsOneCell : Prop :=
  ∀ (s : State) (a v : Byte), (s.memWrite a v).memRead a = v ∧ SameMemoryBut a s (s.memWrite a v) ∧
    { s.memWrite a v with mem := s.mem } = s

/-! ## The stack laws -/

/-- The push-pop inverse (R147, derived by the spec): registers other than R7, SP at least 1. -/
def Obligations.PopUndoesPush : Prop :=
  ∀ (s : State) (p q : Reg), p ≠ 7 → q ≠ 7 → s.reg 7 ≠ 0#8 → s.pc.toNat + 4 ≤ 255 →
    ∃ s1 s2, exec (.push (regByte p)) s = .next s1 ∧ exec (.pop (regByte q)) s1 = .next s2 ∧
      s2.reg q = s.reg p ∧ s2.reg 7 = s.reg 7 ∧ s2.memRead (s.reg 7 - 1#8) = s.reg p

/-- LIFO order (R148, derived by the spec): two pushes and two pops, registers other than R7, SP at least
2; the first value pushed lies at SP - 1 and the second at SP - 2. A popped register may be a pushed one;
the two popped ones differ, since one register cannot hold both values. -/
def Obligations.LastPushedIsFirstPopped : Prop :=
  ∀ (s : State) (p q u w : Reg), p ≠ 7 → q ≠ 7 → u ≠ 7 → w ≠ 7 → u ≠ w →
    2 ≤ (s.reg 7).toNat → s.pc.toNat + 8 ≤ 255 →
    ∃ s1 s2 s3 s4, exec (.push (regByte p)) s = .next s1 ∧ exec (.push (regByte q)) s1 = .next s2 ∧
      exec (.pop (regByte u)) s2 = .next s3 ∧ exec (.pop (regByte w)) s3 = .next s4 ∧
      s2.memRead (s.reg 7 - 1#8) = s.reg p ∧ s2.memRead (s.reg 7 - 2#8) = s.reg q ∧
      s4.reg u = s.reg q ∧ s4.reg w = s.reg p ∧ s4.reg 7 = s.reg 7

/-- PUSH R7 then POP R7 (R149, derived by the spec): SP is as before, and the cell below it holds the
decremented SP. -/
def Obligations.PushPopOfSpRestoresIt : Prop :=
  ∀ s : State, s.reg 7 ≠ 0#8 → s.pc.toNat + 4 ≤ 255 →
    ∃ s1 s2, exec (.push (regByte 7)) s = .next s1 ∧ exec (.pop (regByte 7)) s1 = .next s2 ∧
      s1.memRead (s.reg 7 - 1#8) = s.reg 7 - 1#8 ∧ s2.reg 7 = s.reg 7

/-! ## Reset and the host -/

/-- R190: reset gives the spec's values whatever the state was (R0 to R6, which the spec leaves
unspecified, are not spoken of), and is the only way out of HALTED and FAULTED. -/
def Obligations.ResetGivesTheSpecsValues : Prop :=
  (∀ s : State, let t := hostAct .reset s
    (∀ a : Byte, t.memRead a = 0x00#8) ∧ t.reg 7 = 0xF4#8 ∧ t.pc = 0x00#8 ∧ t.status = .idle ∧
    t.faultCause = 0#8 ∧ t.faultPc = 0#8 ∧ t.out = []) ∧
  (∀ (s : State) (a : HostAction), s.status = .halted ∨ s.status = .faulted → a ≠ .reset →
    hostAct a s = s ∧ ∀ t, step s ≠ .next t)

/-- R195: in IDLE start gives RUNNING and steps follow; in any other status it has no effect, so a fresh
program needs a reset. -/
def Obligations.StartRunsOnlyFromIdle : Prop :=
  ∀ s : State,
    (s.status = .idle → hostAct .start s = { s with status := .running } ∧
      ∃ t, step (hostAct .start s) = .next t) ∧
    (s.status ≠ .idle → hostAct .start s = s)

/-- R193: in IDLE an image of at most 256 bytes is placed with byte i at address i, every other cell
keeps its value, 0 after reset, and nothing else changes. -/
def Obligations.ImageIsPlacedFromAddressZero : Prop :=
  ∀ (s : State) (image : List Byte), s.status = .idle → image.length ≤ 256 →
    ∃ t, loadImage image s = some t ∧
      (∀ i : Nat, ∀ h : i < image.length, t.memRead (BitVec.ofNat 8 i) = image[i]) ∧
      (∀ a : Byte, image.length ≤ a.toNat → t.memRead a = s.memRead a) ∧
      (s = State.reset → ∀ a : Byte, image.length ≤ a.toNat → t.memRead a = 0x00#8) ∧
      { t with mem := s.mem } = s

/-- R194: an image of more than 256 bytes is refused: nothing is loaded and the CORE stays IDLE. -/
def Obligations.OversizeImageIsRefused : Prop :=
  ∀ (s : State) (image : List Byte), 256 < image.length →
    loadImage image s = none ∧ launch image = State.reset ∧ (launch image).status = .idle

/-- The ports of R197 and R198. Load writes one cell in IDLE and has no effect in another status; memory,
registers and `pc` are read back exactly outside RUNNING; `status`, `fault_cause` and `fault_pc` are
readable in any status; no port but reset writes a register or `pc`. The `out` port (R113) delivers in a
step nothing where the opcode is not PRN, and in a PRN step nothing if it faults before its commit and else
exactly one value, the named register's, PC_OVERFLOW included. -/
def Obligations.HostPortsAreLimited : Prop :=
  (∀ (s : State) (addr byte : Byte) (q : Reg) (a : HostAction),
    (s.status = .idle → hostAct (.load addr byte) s = s.memWrite addr byte) ∧
    (s.status ≠ .idle → hostAct (.load addr byte) s = s) ∧
    (s.status = .running → readMemPort addr s = none ∧ readRegPort q s = none ∧ readPcPort s = none) ∧
    (s.status ≠ .running → readMemPort addr s = some (s.memRead addr) ∧
      readRegPort q s = some (s.reg q) ∧ readPcPort s = some s.pc) ∧
    statusPorts s = (s.status, s.faultCause, s.faultPc) ∧
    (a ≠ .reset → (hostAct a s).x = s.x ∧ (hostAct a s).pc = s.pc ∧ (hostAct a s).out = s.out)) ∧
  (∀ s t : State, step s = .next t →
    (s.memRead s.pc ≠ 0x47#8 → outPort s t = []) ∧
    (s.memRead s.pc = 0x47#8 →
      if t.status = .faulted ∧ t.faultCause ≠ 4#8 then outPort s t = []
      else ∃ q : Reg, regByte q = s.memRead (s.pc + 1#8) ∧ outPort s t = [s.reg q]))

/-- R191: the first step of a run fetches `mem[0]`, the image's first byte, 0 for the empty image. -/
def Obligations.FirstStepFetchesAddressZero : Prop :=
  ∀ image : List Byte, image.length ≤ 256 →
    ∃ t, step (launch image) = .next t ∧ (launch image).pc = 0#8 ∧ t.ir = image.getD 0 0#8

/-! ## Invariants and the run -/

/-- The machine's invariant holds after reset. -/
def Obligations.InvariantHoldsAtReset : Prop := State.Inv State.reset

/-- Every step keeps the invariant: canonical memory, a fault record exactly in FAULTED, with one of the
six causes and the address `pc` is at (R34, R160, R164, R167). -/
def Obligations.StepKeepsTheInvariant : Prop :=
  ∀ s t : State, State.Inv s → step s = .next t → State.Inv t

/-- Every host action keeps the invariant (R190, R195, R197). -/
def Obligations.HostActionKeepsTheInvariant : Prop :=
  ∀ (s : State) (a : HostAction), State.Inv s → State.Inv (hostAct a s)

/-- Every run ends (R101, derived by the spec): from any RUNNING state a HALTED or FAULTED state is
reached within half the bytes from `pc` to the top, which from address 0 is at most 128 steps, and so
for every image the host can launch. -/
def Obligations.EveryRunEndsWithin128Steps : Prop :=
  (∀ s : State, s.status = .running →
    ∃ (k : Nat) (t : State), k ≤ (257 - s.pc.toNat) / 2 ∧ Host.Core.run core k s = .next t ∧ t.Ended) ∧
  (∀ image : List Byte, image.length ≤ 256 →
    ∃ (k : Nat) (t : State), k ≤ 128 ∧ Host.Core.run core k (launch image) = .next t ∧ t.Ended)
end

