-- ==== Sys2Proof/Laws/State.lean ====
section
/-! SUPPORT. One lemma per field per state update, and register and memory reads after each update, so
that no proof unfolds a record update. -/

namespace Sys2Proof.Machine

/-! One spelling for the stack pointer: register 7 (R9, R25). -/

@[simp] theorem spIndex_eq : Config.spIndex = (7 : Reg) := rfl
@[simp] theorem State.sp_eq (s : State) : s.sp = s.reg 7 := rfl

@[simp] theorem State.memWrite_mem (s : State) (a v : Byte) : (s.memWrite a v).mem = Memory.write a.toNat v s.mem := rfl
@[simp] theorem State.memWrite_x (s : State) (a v : Byte) : (s.memWrite a v).x = s.x := rfl
@[simp] theorem State.memWrite_pc (s : State) (a v : Byte) : (s.memWrite a v).pc = s.pc := rfl
@[simp] theorem State.memWrite_status (s : State) (a v : Byte) : (s.memWrite a v).status = s.status := rfl
@[simp] theorem State.memWrite_faultCause (s : State) (a v : Byte) : (s.memWrite a v).faultCause = s.faultCause := rfl
@[simp] theorem State.memWrite_faultPc (s : State) (a v : Byte) : (s.memWrite a v).faultPc = s.faultPc := rfl
@[simp] theorem State.memWrite_out (s : State) (a v : Byte) : (s.memWrite a v).out = s.out := rfl
@[simp] theorem State.memWrite_ir (s : State) (a v : Byte) : (s.memWrite a v).ir = s.ir := rfl
@[simp] theorem State.memWrite_b1 (s : State) (a v : Byte) : (s.memWrite a v).b1 = s.b1 := rfl
@[simp] theorem State.memWrite_b2 (s : State) (a v : Byte) : (s.memWrite a v).b2 = s.b2 := rfl

@[simp] theorem State.setReg_mem (s : State) (r : Reg) (v : Byte) : (s.setReg r v).mem = s.mem := rfl
@[simp] theorem State.setReg_x (s : State) (r : Reg) (v : Byte) : (s.setReg r v).x = s.x.set r v := rfl
@[simp] theorem State.setReg_pc (s : State) (r : Reg) (v : Byte) : (s.setReg r v).pc = s.pc := rfl
@[simp] theorem State.setReg_status (s : State) (r : Reg) (v : Byte) : (s.setReg r v).status = s.status := rfl
@[simp] theorem State.setReg_faultCause (s : State) (r : Reg) (v : Byte) : (s.setReg r v).faultCause = s.faultCause := rfl
@[simp] theorem State.setReg_faultPc (s : State) (r : Reg) (v : Byte) : (s.setReg r v).faultPc = s.faultPc := rfl
@[simp] theorem State.setReg_out (s : State) (r : Reg) (v : Byte) : (s.setReg r v).out = s.out := rfl
@[simp] theorem State.setReg_ir (s : State) (r : Reg) (v : Byte) : (s.setReg r v).ir = s.ir := rfl
@[simp] theorem State.setReg_b1 (s : State) (r : Reg) (v : Byte) : (s.setReg r v).b1 = s.b1 := rfl
@[simp] theorem State.setReg_b2 (s : State) (r : Reg) (v : Byte) : (s.setReg r v).b2 = s.b2 := rfl

@[simp] theorem State.setSp_mem (s : State) (v : Byte) : (s.setSp v).mem = s.mem := rfl
@[simp] theorem State.setSp_x (s : State) (v : Byte) : (s.setSp v).x = s.x.set 7 v := rfl
@[simp] theorem State.setSp_pc (s : State) (v : Byte) : (s.setSp v).pc = s.pc := rfl
@[simp] theorem State.setSp_status (s : State) (v : Byte) : (s.setSp v).status = s.status := rfl
@[simp] theorem State.setSp_faultCause (s : State) (v : Byte) : (s.setSp v).faultCause = s.faultCause := rfl
@[simp] theorem State.setSp_faultPc (s : State) (v : Byte) : (s.setSp v).faultPc = s.faultPc := rfl
@[simp] theorem State.setSp_out (s : State) (v : Byte) : (s.setSp v).out = s.out := rfl
@[simp] theorem State.setSp_ir (s : State) (v : Byte) : (s.setSp v).ir = s.ir := rfl
@[simp] theorem State.setSp_b1 (s : State) (v : Byte) : (s.setSp v).b1 = s.b1 := rfl
@[simp] theorem State.setSp_b2 (s : State) (v : Byte) : (s.setSp v).b2 = s.b2 := rfl

@[simp] theorem State.emit_mem (s : State) (v : Byte) : (s.emit v).mem = s.mem := rfl
@[simp] theorem State.emit_x (s : State) (v : Byte) : (s.emit v).x = s.x := rfl
@[simp] theorem State.emit_pc (s : State) (v : Byte) : (s.emit v).pc = s.pc := rfl
@[simp] theorem State.emit_status (s : State) (v : Byte) : (s.emit v).status = s.status := rfl
@[simp] theorem State.emit_faultCause (s : State) (v : Byte) : (s.emit v).faultCause = s.faultCause := rfl
@[simp] theorem State.emit_faultPc (s : State) (v : Byte) : (s.emit v).faultPc = s.faultPc := rfl
@[simp] theorem State.emit_out (s : State) (v : Byte) : (s.emit v).out = s.out ++ [v] := rfl
@[simp] theorem State.emit_ir (s : State) (v : Byte) : (s.emit v).ir = s.ir := rfl
@[simp] theorem State.emit_b1 (s : State) (v : Byte) : (s.emit v).b1 = s.b1 := rfl
@[simp] theorem State.emit_b2 (s : State) (v : Byte) : (s.emit v).b2 = s.b2 := rfl

@[simp] theorem State.setPc_mem (s : State) (t : Byte) : (s.setPc t).mem = s.mem := rfl
@[simp] theorem State.setPc_x (s : State) (t : Byte) : (s.setPc t).x = s.x := rfl
@[simp] theorem State.setPc_pc (s : State) (t : Byte) : (s.setPc t).pc = t := rfl
@[simp] theorem State.setPc_status (s : State) (t : Byte) : (s.setPc t).status = s.status := rfl
@[simp] theorem State.setPc_faultCause (s : State) (t : Byte) : (s.setPc t).faultCause = s.faultCause := rfl
@[simp] theorem State.setPc_faultPc (s : State) (t : Byte) : (s.setPc t).faultPc = s.faultPc := rfl
@[simp] theorem State.setPc_out (s : State) (t : Byte) : (s.setPc t).out = s.out := rfl
@[simp] theorem State.setPc_ir (s : State) (t : Byte) : (s.setPc t).ir = s.ir := rfl
@[simp] theorem State.setPc_b1 (s : State) (t : Byte) : (s.setPc t).b1 = s.b1 := rfl
@[simp] theorem State.setPc_b2 (s : State) (t : Byte) : (s.setPc t).b2 = s.b2 := rfl

@[simp] theorem State.setStatus_mem (s : State) (t : Status) : (s.setStatus t).mem = s.mem := rfl
@[simp] theorem State.setStatus_x (s : State) (t : Status) : (s.setStatus t).x = s.x := rfl
@[simp] theorem State.setStatus_pc (s : State) (t : Status) : (s.setStatus t).pc = s.pc := rfl
@[simp] theorem State.setStatus_status (s : State) (t : Status) : (s.setStatus t).status = t := rfl
@[simp] theorem State.setStatus_faultCause (s : State) (t : Status) : (s.setStatus t).faultCause = s.faultCause := rfl
@[simp] theorem State.setStatus_faultPc (s : State) (t : Status) : (s.setStatus t).faultPc = s.faultPc := rfl
@[simp] theorem State.setStatus_out (s : State) (t : Status) : (s.setStatus t).out = s.out := rfl
@[simp] theorem State.setStatus_ir (s : State) (t : Status) : (s.setStatus t).ir = s.ir := rfl
@[simp] theorem State.setStatus_b1 (s : State) (t : Status) : (s.setStatus t).b1 = s.b1 := rfl
@[simp] theorem State.setStatus_b2 (s : State) (t : Status) : (s.setStatus t).b2 = s.b2 := rfl

@[simp] theorem State.raise_mem (s : State) (c : FaultCause) : (s.raise c).mem = s.mem := rfl
@[simp] theorem State.raise_x (s : State) (c : FaultCause) : (s.raise c).x = s.x := rfl
@[simp] theorem State.raise_pc (s : State) (c : FaultCause) : (s.raise c).pc = s.pc := rfl
@[simp] theorem State.raise_status (s : State) (c : FaultCause) : (s.raise c).status = .faulted := rfl
@[simp] theorem State.raise_faultCause (s : State) (c : FaultCause) : (s.raise c).faultCause = c.code := rfl
@[simp] theorem State.raise_faultPc (s : State) (c : FaultCause) : (s.raise c).faultPc = s.pc := rfl
@[simp] theorem State.raise_out (s : State) (c : FaultCause) : (s.raise c).out = s.out := rfl
@[simp] theorem State.raise_ir (s : State) (c : FaultCause) : (s.raise c).ir = s.ir := rfl
@[simp] theorem State.raise_b1 (s : State) (c : FaultCause) : (s.raise c).b1 = s.b1 := rfl
@[simp] theorem State.raise_b2 (s : State) (c : FaultCause) : (s.raise c).b2 = s.b2 := rfl

@[simp] theorem State.fetchOpcode_mem (s : State) : s.fetchOpcode.mem = s.mem := rfl
@[simp] theorem State.fetchOpcode_x (s : State) : s.fetchOpcode.x = s.x := rfl
@[simp] theorem State.fetchOpcode_pc (s : State) : s.fetchOpcode.pc = s.pc := rfl
@[simp] theorem State.fetchOpcode_status (s : State) : s.fetchOpcode.status = s.status := rfl
@[simp] theorem State.fetchOpcode_faultCause (s : State) : s.fetchOpcode.faultCause = s.faultCause := rfl
@[simp] theorem State.fetchOpcode_faultPc (s : State) : s.fetchOpcode.faultPc = s.faultPc := rfl
@[simp] theorem State.fetchOpcode_out (s : State) : s.fetchOpcode.out = s.out := rfl
@[simp] theorem State.fetchOpcode_ir (s : State) : s.fetchOpcode.ir = s.memRead s.pc := rfl
@[simp] theorem State.fetchOpcode_b1 (s : State) : s.fetchOpcode.b1 = s.b1 := rfl
@[simp] theorem State.fetchOpcode_b2 (s : State) : s.fetchOpcode.b2 = s.b2 := rfl

/-! Register and memory reads: an update of another component leaves them alone. -/

@[simp] theorem State.memWrite_reg (s : State) (a v : Byte) (q : Reg) : (s.memWrite a v).reg q = s.reg q := rfl
@[simp] theorem State.setReg_memRead (s : State) (r : Reg) (v : Byte) (b : Byte) : (s.setReg r v).memRead b = s.memRead b := rfl
@[simp] theorem State.setSp_memRead (s : State) (v : Byte) (b : Byte) : (s.setSp v).memRead b = s.memRead b := rfl
@[simp] theorem State.emit_reg (s : State) (v : Byte) (q : Reg) : (s.emit v).reg q = s.reg q := rfl
@[simp] theorem State.emit_memRead (s : State) (v : Byte) (b : Byte) : (s.emit v).memRead b = s.memRead b := rfl
@[simp] theorem State.setPc_reg (s : State) (t : Byte) (q : Reg) : (s.setPc t).reg q = s.reg q := rfl
@[simp] theorem State.setPc_memRead (s : State) (t : Byte) (b : Byte) : (s.setPc t).memRead b = s.memRead b := rfl
@[simp] theorem State.setStatus_reg (s : State) (t : Status) (q : Reg) : (s.setStatus t).reg q = s.reg q := rfl
@[simp] theorem State.setStatus_memRead (s : State) (t : Status) (b : Byte) : (s.setStatus t).memRead b = s.memRead b := rfl
@[simp] theorem State.raise_reg (s : State) (c : FaultCause) (q : Reg) : (s.raise c).reg q = s.reg q := rfl
@[simp] theorem State.raise_memRead (s : State) (c : FaultCause) (b : Byte) : (s.raise c).memRead b = s.memRead b := rfl
@[simp] theorem State.fetchOpcode_reg (s : State) (q : Reg) : s.fetchOpcode.reg q = s.reg q := rfl
@[simp] theorem State.fetchOpcode_memRead (s : State) (b : Byte) : s.fetchOpcode.memRead b = s.memRead b := rfl

/-- A register reads back what was written to it; every other register is unchanged. -/
@[simp] theorem State.setReg_reg (s : State) (r : Reg) (v : Byte) (q : Reg) :
    (s.setReg r v).reg q = if q = r then v else s.reg q := by
  have h : (r : Nat) = (q : Nat) ↔ q = r := by rw [Fin.ext_iff]; exact eq_comm
  simp [State.setReg, State.reg, Vector.getElem_set, h]

@[simp] theorem State.setSp_reg (s : State) (v : Byte) (q : Reg) :
    (s.setSp v).reg q = if q = 7 then v else s.reg q := State.setReg_reg ..

/-! The operand latches. -/

@[simp] theorem State.latchOperand_one (s : State) (v : Byte) :
    s.latchOperand 1 v = { s with b1 := v } := rfl
@[simp] theorem State.latchOperand_two (s : State) (v : Byte) :
    s.latchOperand 2 v = { s with b2 := v } := rfl

/-! The reset state (R40, R190). -/

@[simp] theorem State.reset_mem : State.reset.mem = [] := rfl
@[simp] theorem State.reset_pc : State.reset.pc = 0x00#8 := rfl
@[simp] theorem State.reset_status : State.reset.status = .idle := rfl
@[simp] theorem State.reset_faultCause : State.reset.faultCause = 0x00#8 := rfl
@[simp] theorem State.reset_faultPc : State.reset.faultPc = 0x00#8 := rfl
@[simp] theorem State.reset_out : State.reset.out = [] := rfl
@[simp] theorem State.reset_spReg : State.reset.reg 7 = 0xF4#8 := rfl
@[simp] theorem State.reset_memRead (a : Byte) : State.reset.memRead a = 0x00#8 := rfl

end Sys2Proof.Machine
end

