-- ==== Sys2Proof/Laws/Memory.lean ====
section
/-! SUPPORT. The laws of memory: a read after a write, and that every memory operation keeps the
canonical form, in which equal contents are equal data. -/

namespace Sys2Proof.Machine

@[simp] theorem Memory.read_nil (a : Nat) : Memory.read a [] = Config.cellReset := rfl

@[simp] theorem Memory.read_cons (a b : Nat) (w : Byte) (m : Memory) :
    Memory.read a ((b, w) :: m) = if a = b then w else Memory.read a m := rfl

theorem Memory.read_erase (a b : Nat) (m : Memory) :
    Memory.read b (Memory.erase a m) = if b = a then Config.cellReset else Memory.read b m := by
  unfold Memory.erase
  induction m with
  | nil => simp
  | cons c m ih =>
    obtain ⟨k, w⟩ := c
    by_cases hk : k = a
    · subst hk
      by_cases hb : b = k <;> simp_all
    · by_cases hb : b = k <;> simp_all

theorem Memory.read_insert (a b : Nat) (v : Byte) (m : Memory) :
    Memory.read b (Memory.insert a v m) = if b = a then v else Memory.read b m := by
  induction m with
  | nil => simp [Memory.insert]
  | cons c m ih =>
    obtain ⟨k, w⟩ := c
    simp only [Memory.insert]
    split
    · simp
    · split
      · subst k; by_cases hb : b = a <;> simp [hb]
      · next hne =>
        by_cases hb : b = k
        · have : b ≠ a := fun h => hne (h ▸ hb)
          simp [hb ▸ this, hb]
        · simp [hb, ih]

/-- A read after a write gives the value written, and every other cell is unchanged (R47). -/
@[simp] theorem Memory.read_write (a b : Nat) (v : Byte) (m : Memory) :
    Memory.read b (Memory.write a v m) = if b = a then v else Memory.read b m := by
  unfold Memory.write
  split
  · subst v; exact Memory.read_erase ..
  · exact Memory.read_insert ..

/-- `MemRead` after `MemWrite`, on states. -/
@[simp] theorem State.memWrite_memRead (s : State) (a v b : Byte) :
    (s.memWrite a v).memRead b = if b = a then v else s.memRead b := by
  simp [State.memWrite, State.memRead, BitVec.toNat_inj]

theorem Memory.wf_nil : Memory.wf [] := ⟨List.Pairwise.nil, fun _ hc => nomatch hc⟩

theorem Memory.erase_keeps_wf {m : Memory} (a : Nat) (h : Memory.wf m) : Memory.wf (Memory.erase a m) :=
  ⟨h.1.filter _, fun c hc => h.2 c (List.mem_of_mem_filter hc)⟩

/-- The cells of an insertion are the new one and old ones. -/
theorem Memory.mem_insert {a : Nat} {v : Byte} {m : Memory} {c : Host.Cell}
    (h : c ∈ Memory.insert a v m) : c = (a, v) ∨ c ∈ m := by
  induction m with
  | nil => simpa [Memory.insert] using h
  | cons d m ih =>
    simp only [Memory.insert] at h
    split at h
    · simpa using h
    · split at h
      · rcases List.mem_cons.1 h with h | h <;> simp [h]
      · rcases List.mem_cons.1 h with h | h
        · simp [h]
        · rcases ih h with h | h <;> simp [h]

theorem Memory.insert_keeps_order {m : Memory} (a : Nat) (v : Byte)
    (h : m.Pairwise fun c d => c.1 < d.1) : (Memory.insert a v m).Pairwise fun c d => c.1 < d.1 := by
  induction m with
  | nil => simp [Memory.insert]
  | cons d m ih =>
    obtain ⟨b, w⟩ := d
    obtain ⟨hd, hm⟩ := List.pairwise_cons.1 h
    simp only [Memory.insert]
    split
    · next hab =>
      refine List.pairwise_cons.2 ⟨fun c hc => ?_, h⟩
      rcases List.mem_cons.1 hc with rfl | hc
      · exact hab
      · exact hab.trans (hd c hc)
    · split
      · next hab => subst hab; exact List.pairwise_cons.2 ⟨hd, hm⟩
      · next hlt hne =>
        refine List.pairwise_cons.2 ⟨fun c hc => ?_, ih hm⟩
        rcases Memory.mem_insert hc with rfl | hc
        · have : b < a := by omega
          exact this
        · exact hd c hc

theorem Memory.insert_keeps_wf {m : Memory} {a : Nat} {v : Byte} (ha : a < Config.memSize)
    (hv : v ≠ Config.cellReset) (h : Memory.wf m) : Memory.wf (Memory.insert a v m) := by
  refine ⟨Memory.insert_keeps_order a v h.1, fun c hc => ?_⟩
  rcases Memory.mem_insert hc with rfl | hc
  · exact ⟨ha, hv⟩
  · exact h.2 c hc

/-- Every write keeps the canonical form. -/
theorem Memory.write_keeps_wf {m : Memory} {a : Nat} (v : Byte) (ha : a < Config.memSize)
    (h : Memory.wf m) : Memory.wf (Memory.write a v m) := by
  unfold Memory.write
  split
  · exact Memory.erase_keeps_wf a h
  · next hv => exact Memory.insert_keeps_wf ha hv h

/-- An 8-bit address is inside the memory (R45). -/
theorem addr_lt_memSize (a : Byte) : a.toNat < Config.memSize := a.isLt

theorem State.memWrite_keeps_wf {s : State} (a v : Byte) (h : Memory.wf s.mem) :
    Memory.wf (s.memWrite a v).mem :=
  Memory.write_keeps_wf v (addr_lt_memSize a) h

/-- Storing bytes keeps the canonical form. -/
theorem Memory.storeBytes_keeps_wf (bs : List Byte) {m : Memory} (a : Nat) (h : Memory.wf m) :
    Memory.wf (Memory.storeBytes a bs m) := by
  induction bs generalizing a m with
  | nil => exact h
  | cons b bs ih =>
    refine ih (a + 1) ?_
    split
    · next ha => exact Memory.write_keeps_wf b ha h
    · exact h

theorem Memory.reset_wf : Memory.wf State.reset.mem := Memory.wf_nil

/-- Below every listed address, a memory reads as the reset contents. -/
theorem Memory.read_of_forall_lt {m : Memory} {a : Nat} (h : ∀ c ∈ m, a < c.1) :
    Memory.read a m = Config.cellReset := by
  induction m with
  | nil => rfl
  | cons c m ih =>
    have hc : a < c.1 := h c (by simp)
    obtain ⟨b, w⟩ := c
    rw [Memory.read_cons, if_neg (by dsimp at hc; omega)]
    exact ih fun d hd => h d (by simp [hd])

/-- Canonical memories with the same contents are the same data. -/
theorem Memory.ext_of_read {m n : Memory} (hm : Memory.wf m) (hn : Memory.wf n)
    (h : ∀ a, Memory.read a m = Memory.read a n) : m = n := by
  induction m generalizing n with
  | nil =>
    cases n with
    | nil => rfl
    | cons d n =>
      obtain ⟨b, w⟩ := d
      exact absurd (by simpa using (h b).symm) (hn.2 (b, w) (by simp)).2
  | cons c m ih =>
    obtain ⟨a, v⟩ := c
    obtain ⟨hc, hmp⟩ := List.pairwise_cons.1 hm.1
    cases n with
    | nil => exact absurd (by simpa using h a) (hm.2 (a, v) (by simp)).2
    | cons d n =>
      obtain ⟨b, w⟩ := d
      obtain ⟨hd, hnp⟩ := List.pairwise_cons.1 hn.1
      have hv := (hm.2 (a, v) (by simp)).2
      have hw := (hn.2 (b, w) (by simp)).2
      have hab : a = b := by
        rcases Nat.lt_trichotomy a b with hlt | heq | hlt
        · refine absurd ?_ hv
          have := h a
          rw [Memory.read_cons, if_pos rfl, Memory.read_of_forall_lt] at this
          · exact this
          · intro e he
            rcases List.mem_cons.1 he with rfl | he
            · exact hlt
            · exact hlt.trans (hd e he)
        · exact heq
        · refine absurd ?_ hw
          have := (h b).symm
          rw [Memory.read_cons, if_pos rfl, Memory.read_of_forall_lt] at this
          · exact this
          · intro e he
            rcases List.mem_cons.1 he with rfl | he
            · exact hlt
            · exact hlt.trans (hc e he)
      subst hab
      have hvw : v = w := by simpa using h a
      subst hvw
      have htail : m = n := by
        refine ih ⟨hmp, fun e he => hm.2 e (by simp [he])⟩ ⟨hnp, fun e he => hn.2 e (by simp [he])⟩ fun k => ?_
        by_cases hk : k = a
        · subst hk
          rw [Memory.read_of_forall_lt hc, Memory.read_of_forall_lt hd]
        · simpa [hk] using h k
      rw [htail]

end Sys2Proof.Machine
end

