-- ==== Sys2Proof/Laws/Ops.lean ====
section
/-! SUPPORT. What each shared operation can do, said once: the register-index check, fault entry, the
retirement of an instruction, the ALU and the stack's commits. -/

namespace Sys2Proof.Machine

@[simp] theorem regByte_toNat (r : Reg) : (regByte r).toNat = r.val := by
  simp [regByte, BitVec.toNat_ofNat]; omega

@[simp] theorem regIndex_regByte (r : Reg) : regIndex? (regByte r) = some r := by
  simp [regIndex?]

theorem regIndex_eq_some {b : Byte} {r : Reg} : regIndex? b = some r ↔ b = regByte r := by
  constructor
  · unfold regIndex?
    split
    · intro h
      cases h
      exact BitVec.eq_of_toNat_eq (by simp)
    · intro h; cases h
  · rintro rfl; simp

theorem regIndex_eq_none {b : Byte} : regIndex? b = none ↔ 7 < b.toNat := by
  unfold regIndex?
  split <;> simp <;> omega

theorem namesRegister_iff {b : Byte} : namesRegister b = true ↔ ∃ r, b = regByte r := by
  simp only [← regIndex_eq_some, namesRegister, decide_eq_true_eq]
  cases h : regIndex? b with
  | none => have := regIndex_eq_none.1 h; simp; omega
  | some r => have := regIndex_eq_some.1 h; subst this; simp; omega

@[simp] theorem withReg_regByte (r : Reg) (s : State) (go : Reg → Result) :
    withReg (regByte r) s go = go r := by
  simp [withReg]

/-- An index byte above 7 takes the fault ILLEGAL_REGISTER (R94). -/
theorem withReg_illegal {b : Byte} (h : 7 < b.toNat) (s : State) (go : Reg → Result) :
    withReg b s go = .next (s.raise .illegalRegister) := by
  simp [withReg, regIndex_eq_none.2 h, raiseFault]

/-- Everything `withReg` can do. -/
theorem withReg_next {b : Byte} {s t : State} {go : Reg → Result} (h : withReg b s go = .next t) :
    (∃ r, b = regByte r ∧ go r = .next t) ∨ (7 < b.toNat ∧ t = s.raise .illegalRegister) := by
  unfold withReg at h
  split at h
  · next r hr => exact .inl ⟨r, regIndex_eq_some.1 hr, h⟩
  · next hr => exact .inr ⟨regIndex_eq_none.1 hr, by cases h; rfl⟩

/-- Retirement inside the memory: the advance (R96). -/
theorem retire_inside {len : Nat} {s : State} (h : s.pc.toNat + len ≤ 255) :
    retire len s = .next (s.setPc (s.pc + BitVec.ofNat 8 len)) := by
  simp [retire, pcOverflows, h]

/-- Retirement at the top of memory: PC_OVERFLOW (R97). -/
theorem retire_overflow {len : Nat} {s : State} (h : 255 < s.pc.toNat + len) :
    retire len s = .next (s.raise .pcOverflow) := by
  simp [retire, pcOverflows, raiseFault, h]

/-- Everything `retire` can do. -/
theorem retire_next {len : Nat} {s t : State} (h : retire len s = .next t) :
    (s.pc.toNat + len ≤ 255 ∧ t = s.setPc (s.pc + BitVec.ofNat 8 len)) ∨
      (255 < s.pc.toNat + len ∧ t = s.raise .pcOverflow) := by
  rcases Nat.lt_or_ge 255 (s.pc.toNat + len) with hl | hl
  · rw [retire_overflow hl] at h; cases h; exact .inr ⟨hl, rfl⟩
  · rw [retire_inside hl] at h; cases h; exact .inl ⟨hl, rfl⟩

/-- An advance inside the memory does not wrap. -/
theorem advance_toNat {pc : Byte} {len : Nat} (h : pc.toNat + len ≤ 255) :
    (pc + BitVec.ofNat 8 len).toNat = pc.toNat + len := by
  simp [BitVec.toNat_add]; omega

/-- The ALU's MUL always has a result (R126). -/
@[simp] theorem alu_mul (a b : Reg) (s : State) :
    alu .mul a b s = some (s.setReg a (BitVec.ofNat 8 ((s.reg a).toNat * (s.reg b).toNat))) := rfl

@[simp] theorem alu_add (a b : Reg) (s : State) :
    alu .add a b s = some (s.setReg a (BitVec.ofNat 8 ((s.reg a).toNat + (s.reg b).toNat))) := rfl

@[simp] theorem alu_other (a b : Reg) (s : State) : alu .other a b s = none := rfl

/-- PUSH's commit as two updates (R140): the stored byte is the decremented SP for R7, else `x[r]`. -/
theorem State.pushed_eq (s : State) (r : Reg) :
    s.pushed r = (s.setSp (s.reg 7 - 1#8)).memWrite (s.reg 7 - 1#8)
      (if r = 7 then s.reg 7 - 1#8 else s.reg r) := by
  simp [State.pushed, pushAddress]

/-- POP's commit as two updates (R145). -/
theorem State.popped_eq (s : State) (r : Reg) :
    s.popped r = (s.setReg r (s.memRead (s.reg 7))).setSp
      ((if r = 7 then s.memRead (s.reg 7) else s.reg 7) + 1#8) := rfl

end Sys2Proof.Machine
end

