-- ==== Sys2Proof/Laws/Exec.lean ====
section
/-! SUPPORT. What the meanings do, said once for all instructions: the check that can stop each one
before it commits, and its commit. -/

namespace Sys2Proof.Machine

/-- The register an operand byte names (R0 where it names none). -/
def regOf (b : Byte) : Reg := (regIndex? b).getD 0

@[simp] theorem regOf_regByte (r : Reg) : regOf (regByte r) = r := by simp [regOf]

/-- Stage 4's commit of a well-formed instruction whose checks passed (R95). -/
def commit (i : Instr) (s : State) : State :=
  match i with
  | .hlt => s.setStatus .halted
  | .ldi r imm => s.setReg (regOf r) imm
  | .prn r => s.emit (s.reg (regOf r))
  | .mul a b => s.setReg (regOf a) (BitVec.ofNat 8 ((s.reg (regOf a)).toNat * (s.reg (regOf b)).toNat))
  | .push r => s.pushed (regOf r)
  | .pop r => s.popped (regOf r)

/-- The fault raised before an instruction commits, if any: the index check, then the stack check
(R94, R95, R170). -/
def faultBefore (i : Instr) (s : State) : Option FaultCause :=
  if i.wellFormed then
    match i with
    | .hlt => none
    | .ldi _ _ => none
    | .prn _ => none
    | .mul _ _ => none
    | .push _ => if (s.reg 7).toNat = 0 then some .stackOverflow else none
    | .pop r => if (popSp s (regOf r)).toNat = 255 then some .stackUnderflow else none
  else some .illegalRegister

/-- Stages 4 and 5 once the checks passed: commit, then retire; HLT does not advance (R96). -/
def finish (i : Instr) (s : State) : Result :=
  match i with
  | .hlt => .next (commit .hlt s)
  | .ldi r imm => retire 3 (commit (.ldi r imm) s)
  | .prn r => retire 2 (commit (.prn r) s)
  | .mul a b => retire 3 (commit (.mul a b) s)
  | .push r => retire 2 (commit (.push r) s)
  | .pop r => retire 2 (commit (.pop r) s)

theorem wellFormed_ldi {r imm : Byte} : (Instr.ldi r imm).wellFormed = namesRegister r := by
  simp [Instr.wellFormed, Instr.regOperands]
theorem wellFormed_prn {r : Byte} : (Instr.prn r).wellFormed = namesRegister r := by
  simp [Instr.wellFormed, Instr.regOperands]
theorem wellFormed_mul {a b : Byte} :
    (Instr.mul a b).wellFormed = (namesRegister a && namesRegister b) := by
  simp [Instr.wellFormed, Instr.regOperands]
theorem wellFormed_push {r : Byte} : (Instr.push r).wellFormed = namesRegister r := by
  simp [Instr.wellFormed, Instr.regOperands]
theorem wellFormed_pop {r : Byte} : (Instr.pop r).wellFormed = namesRegister r := by
  simp [Instr.wellFormed, Instr.regOperands]

/-- A byte names a register, or it is above 7. -/
theorem regByte_or_illegal (b : Byte) :
    (∃ r, b = regByte r ∧ namesRegister b = true) ∨ (7 < b.toNat ∧ namesRegister b = false) := by
  by_cases h : namesRegister b = true
  · obtain ⟨r, rfl⟩ := namesRegister_iff.1 h
    exact .inl ⟨r, rfl, h⟩
  · exact .inr ⟨by simpa [namesRegister] using h, by simpa using h⟩

/-- The faults an instruction can raise before its commit: the index check's, and the stack check's of PUSH
and POP (R94, R95). -/
theorem faultBefore_some {i : Instr} {s : State} {c : FaultCause} (h : faultBefore i s = some c) :
    (c = .illegalRegister ∧ i.wellFormed = false) ∨
    (c = .stackOverflow ∧ (∃ r, i = .push r) ∧ (s.reg 7).toNat = 0) ∨
    (c = .stackUnderflow ∧ ∃ r, i = .pop r ∧ (popSp s (regOf r)).toNat = 255) := by
  by_cases hw : i.wellFormed = true
  · rw [faultBefore.eq_def, if_pos hw] at h
    cases i with
    | push r => dsimp only at h; split_ifs at h with h0; cases h; exact .inr (.inl ⟨rfl, ⟨r, rfl⟩, h0⟩)
    | pop r => dsimp only at h; split_ifs at h with h0; cases h; exact .inr (.inr ⟨rfl, r, rfl, h0⟩)
    | _ => cases h
  · rw [faultBefore.eq_def, if_neg hw] at h
    cases h; exact .inl ⟨rfl, by simpa using hw⟩

/-- Everything `exec` does: the fault before the commit, or the commit and the retirement. -/
theorem exec_eq (i : Instr) (s : State) :
    exec i s = match faultBefore i s with
      | some c => .next (s.raise c)
      | none => finish i s := by
  cases i with
  | hlt => rfl
  | ldi r imm =>
    obtain ⟨q, rfl, hq⟩ | ⟨hr, hq⟩ := regByte_or_illegal r
    · simp [exec, execLdi, faultBefore, wellFormed_ldi, hq, finish, commit, immediate, Opcode.length,
        Opcode.operandCount, Opcode.format, Format.operandCount]
    · simp [exec, execLdi, faultBefore, wellFormed_ldi, hq, withReg_illegal hr]
  | prn r =>
    obtain ⟨q, rfl, hq⟩ | ⟨hr, hq⟩ := regByte_or_illegal r
    · simp [exec, execPrn, faultBefore, wellFormed_prn, hq, finish, commit, Opcode.length,
        Opcode.operandCount, Opcode.format, Format.operandCount]
    · simp [exec, execPrn, faultBefore, wellFormed_prn, hq, withReg_illegal hr]
  | mul a b =>
    obtain ⟨p, rfl, hp⟩ | ⟨ha, hp⟩ := regByte_or_illegal a
    · obtain ⟨q, rfl, hq⟩ | ⟨hb, hq⟩ := regByte_or_illegal b
      · simp [exec, execMul, faultBefore, wellFormed_mul, hp, hq, finish, commit, aluRetire, Opcode.length,
          Opcode.operandCount, Opcode.format, Format.operandCount]
      · simp [exec, execMul, faultBefore, wellFormed_mul, hp, hq, withReg_illegal hb]
    · simp [exec, execMul, faultBefore, wellFormed_mul, hp, withReg_illegal ha]
  | push r =>
    obtain ⟨q, rfl, hq⟩ | ⟨hr, hq⟩ := regByte_or_illegal r
    · by_cases h0 : (s.reg 7).toNat = 0 <;>
        simp [exec, execPush, faultBefore, wellFormed_push, hq, finish, commit, stackOverflows, h0,
          raiseFault, Opcode.length, Opcode.operandCount, Opcode.format, Format.operandCount]
    · simp [exec, execPush, faultBefore, wellFormed_push, hq, withReg_illegal hr]
  | pop r =>
    obtain ⟨q, rfl, hq⟩ | ⟨hr, hq⟩ := regByte_or_illegal r
    · by_cases h0 : (popSp s q).toNat = 255 <;>
        simp [exec, execPop, faultBefore, wellFormed_pop, hq, finish, commit, stackUnderflows, h0,
          raiseFault, Opcode.length, Opcode.operandCount, Opcode.format, Format.operandCount]
    · simp [exec, execPop, faultBefore, wellFormed_pop, hq, withReg_illegal hr]

/-- What a commit never touches: the program counter, the fault record and the latches. -/
theorem commit_frame (i : Instr) (s : State) :
    (commit i s).pc = s.pc ∧ (commit i s).faultCause = s.faultCause ∧ (commit i s).faultPc = s.faultPc ∧
      (commit i s).ir = s.ir ∧ (commit i s).b1 = s.b1 ∧ (commit i s).b2 = s.b2 := by
  cases i <;> simp [commit, State.pushed_eq, State.popped_eq]

/-- Only HLT's commit changes the status. -/
theorem commit_status {i : Instr} (h : i ≠ .hlt) (s : State) : (commit i s).status = s.status := by
  cases i <;> first | exact absurd rfl h | simp [commit, State.pushed_eq, State.popped_eq]

/-- Every commit keeps the memory's canonical form. -/
theorem commit_keeps_wf (i : Instr) {s : State} (h : Memory.wf s.mem) : Memory.wf (commit i s).mem := by
  cases i with
  | hlt => exact h
  | ldi r imm => exact h
  | prn r => exact h
  | mul a b => exact h
  | push r =>
    rw [commit, State.pushed_eq]
    exact State.memWrite_keeps_wf (s := s.setSp (s.reg 7 - 1#8)) _ _ h
  | pop r => exact h

/-- Retirement of any instruction but HLT. -/
theorem finish_eq {i : Instr} (h : i ≠ .hlt) (s : State) :
    finish i s = retire i.opcode.length (commit i s) := by
  cases i <;> first | exact absurd rfl h | rfl

/-- Everything a next state of `exec` can be: HLT's, a fault before the commit, a retirement, or
PC_OVERFLOW after the commit. -/
theorem exec_next {i : Instr} {s t : State} (h : exec i s = .next t) :
    (i = .hlt ∧ t = s.setStatus .halted) ∨
    (∃ c, faultBefore i s = some c ∧ t = s.raise c) ∨
    (i ≠ .hlt ∧ faultBefore i s = none ∧ s.pc.toNat + i.opcode.length ≤ 255 ∧
      t = (commit i s).setPc (s.pc + BitVec.ofNat 8 i.opcode.length)) ∨
    (i ≠ .hlt ∧ faultBefore i s = none ∧ 255 < s.pc.toNat + i.opcode.length ∧
      t = (commit i s).raise .pcOverflow) := by
  rw [exec_eq] at h
  split at h
  · next c hc => cases h; exact .inr (.inl ⟨c, hc, rfl⟩)
  · next hc =>
    by_cases hi : i = .hlt
    · subst hi; cases h; exact .inl ⟨rfl, rfl⟩
    · rw [finish_eq hi] at h
      have hpc := (commit_frame i s).1
      rcases retire_next h with ⟨hl, rfl⟩ | ⟨hl, rfl⟩
      · exact .inr (.inr (.inl ⟨hi, hc, hpc ▸ hl, by rw [hpc]⟩))
      · exact .inr (.inr (.inr ⟨hi, hc, hpc ▸ hl, rfl⟩))

/-- A meaning always answers a next state: a CORE fault is one too (R171). -/
theorem exec_answers (i : Instr) (s : State) : ∃ t, exec i s = .next t := by
  rw [exec_eq]
  split
  · exact ⟨_, rfl⟩
  · by_cases hi : i = .hlt
    · subst hi; exact ⟨_, rfl⟩
    · rw [finish_eq hi, retire]
      split <;> exact ⟨_, rfl⟩

end Sys2Proof.Machine
end

