-- ==== Sys2Proof/Laws/Fetch.lean ====
section
/-! SUPPORT. What the fetch stages and a step do, said once. -/

namespace Sys2Proof

/-- The opcode map read backwards: a byte is decoded exactly to the opcode it is (R67). -/
theorem Opcode.ofByte_eq_some {b : Byte} {op : Opcode} : Opcode.ofByte b = some op ↔ b = op.byte := by
  constructor
  · unfold Opcode.ofByte
    intro h
    split_ifs at h with h1 h2 h3 h4 h5 h6 <;> cases h <;> assumption
  · rintro rfl
    cases op <;> decide

@[simp] theorem Opcode.ofByte_byte (op : Opcode) : Opcode.ofByte op.byte = some op :=
  Opcode.ofByte_eq_some.2 rfl

@[simp] theorem Opcode.build_opcode (op : Opcode) (b1 b2 : Byte) : (op.build b1 b2).opcode = op := by
  cases op <;> rfl

end Sys2Proof

namespace Sys2Proof.Machine

/-- Stage 3 for one operand inside the memory. -/
theorem fetchOperand_inside {k : Nat} {s : State} (h : s.pc.toNat + k ≤ 255) :
    fetchOperand k s = .ok (s.latchOperand k (s.memRead (s.pc + BitVec.ofNat 8 k))) := by
  simp [fetchOperand, operandOutOfRange, h]

/-- Stage 3 for one operand above the memory (R93). -/
theorem fetchOperand_above {k : Nat} {s : State} (h : 255 < s.pc.toNat + k) :
    fetchOperand k s = .error (s.raise .operandRange) := by
  simp [fetchOperand, operandOutOfRange, h]

/-- The latches an opcode's operand fetch loads when every operand byte exists. -/
def State.operandsLatched (s : State) : Nat → State
  | 0 => s
  | 1 => { s with b1 := s.memRead (s.pc + 1#8) }
  | _ + 2 => { s with b1 := s.memRead (s.pc + 1#8), b2 := s.memRead (s.pc + 2#8) }

/-- Stage 3 inside the memory loads the latches and nothing else. -/
theorem fetchOperands_inside (op : Opcode) {s : State} (h : s.pc.toNat + op.operandCount ≤ 255) :
    fetchOperands op.operandCount s = .ok (s.operandsLatched op.operandCount) := by
  have key : ∀ n, n ≤ 2 → s.pc.toNat + n ≤ 255 → fetchOperands n s = .ok (s.operandsLatched n) := by
    intro n hn hp
    match n, hn with
    | 0, _ => rfl
    | 1, _ => simp [fetchOperands, fetchOperand_inside hp, State.operandsLatched]
    | 2, _ =>
      have h1 : s.pc.toNat + 1 ≤ 255 := by omega
      have h2 : ({ s with b1 := s.memRead (s.pc + 1#8) } : State).pc.toNat + 2 ≤ 255 := hp
      simp [fetchOperands, fetchOperand_inside h1, fetchOperand_inside h2, State.operandsLatched]
      rfl
  exact key _ (by cases op <;> decide) h

/-- The latches when an operand byte lies above the memory: B1 alone is loaded, if it exists. -/
def State.partlyLatched (s : State) : State :=
  { s with b1 := if s.pc.toNat + 1 ≤ 255 then s.memRead (s.pc + 1#8) else s.b1 }

/-- Stage 3 above the memory takes OPERAND_RANGE with at most B1 loaded (R93). -/
theorem fetchOperands_above (op : Opcode) {s : State} (h : 255 < s.pc.toNat + op.operandCount) :
    fetchOperands op.operandCount s = .error (s.partlyLatched.raise .operandRange) := by
  have hpc := s.pc.isLt
  have key : ∀ n, n ≤ 2 → 255 < s.pc.toNat + n →
      fetchOperands n s = .error (s.partlyLatched.raise .operandRange) := by
    intro n hn hp
    match n, hn with
    | 0, _ => omega
    | 1, _ =>
      have h1 : ¬ s.pc.toNat + 1 ≤ 255 := by omega
      simp [fetchOperands, fetchOperand_above hp, State.partlyLatched, h1]
    | 2, _ =>
      by_cases h1 : s.pc.toNat + 1 ≤ 255
      · have h2 : 255 < ({ s with b1 := s.memRead (s.pc + 1#8) } : State).pc.toNat + 2 := hp
        simp [fetchOperands, fetchOperand_inside h1, fetchOperand_above h2, State.partlyLatched, h1]
      · have h1' : 255 < s.pc.toNat + 1 := by omega
        simp [fetchOperands, fetchOperand_above h1', State.partlyLatched, h1]
  exact key _ (by cases op <;> decide) h

/-- The state in which `cycle` runs the instruction of an opcode: IR and the operand latches loaded. -/
def State.fetched (s : State) (op : Opcode) : State := s.fetchOpcode.operandsLatched op.operandCount

/-- The instruction `cycle` runs for an opcode. -/
def State.fetchedInstr (s : State) (op : Opcode) : Instr :=
  op.build (s.fetched op).b1 (s.fetched op).b2

/-- A step exists exactly in RUNNING (R90). -/
theorem step_running {s : State} (h : s.status = .running) : step s = cycle s := by
  simp [step, h]

theorem step_not_running {s : State} (h : s.status ≠ .running) : ∃ r, step s = .fault r := by
  unfold step
  cases hs : s.status with
  | running => exact absurd hs h
  | idle => exact ⟨_, rfl⟩
  | halted => exact ⟨_, rfl⟩
  | faulted => exact ⟨_, rfl⟩

theorem running_of_step {s t : State} (h : step s = .next t) : s.status = .running := by
  by_contra hs
  obtain ⟨r, hr⟩ := step_not_running hs
  rw [hr] at h; cases h

/-- An illegal opcode: the fault before any operand is fetched (R92). -/
theorem cycle_illegal {s : State} (h : Opcode.ofByte (s.memRead s.pc) = none) :
    cycle s = .next (s.fetchOpcode.raise .illegalOpcode) := by
  simp [cycle, h, raiseFault]

/-- A legal opcode goes on to its operand fetch (R92). -/
theorem cycle_legal {s : State} {op : Opcode} (h : s.memRead s.pc = op.byte) :
    cycle s = match fetchOperands op.operandCount s.fetchOpcode with
      | .error t => .next t
      | .ok t => exec (op.build t.b1 t.b2) t := by
  have hop : Opcode.ofByte s.fetchOpcode.ir = some op := by simp [h]
  have key : ∀ o, Opcode.ofByte s.fetchOpcode.ir = o → cycle s = match o with
      | none => raiseFault .illegalOpcode s.fetchOpcode
      | some op => match fetchOperands op.operandCount s.fetchOpcode with
        | .error t => .next t
        | .ok t => exec (op.build t.b1 t.b2) t := by
    rintro _ rfl
    rfl
  exact key _ hop

/-- A legal opcode whose operand bytes exist runs its instruction (R93 to R95). -/
theorem cycle_exec {s : State} {op : Opcode} (h : s.memRead s.pc = op.byte)
    (hp : s.pc.toNat + op.operandCount ≤ 255) :
    cycle s = exec (s.fetchedInstr op) (s.fetched op) := by
  have h' : s.fetchOpcode.pc.toNat + op.operandCount ≤ 255 := hp
  rw [cycle_legal h, fetchOperands_inside op h', State.fetchedInstr, State.fetched]

/-- A legal opcode with an operand byte above the memory (R93). -/
theorem cycle_above {s : State} {op : Opcode} (h : s.memRead s.pc = op.byte)
    (hp : 255 < s.pc.toNat + op.operandCount) :
    cycle s = .next (s.fetchOpcode.partlyLatched.raise .operandRange) := by
  have h' : 255 < s.fetchOpcode.pc.toNat + op.operandCount := hp
  rw [cycle_legal h, fetchOperands_above op h']

/-- Everything a step can do. -/
theorem step_next {s t : State} (h : step s = .next t) :
    s.status = .running ∧
    ((Opcode.ofByte (s.memRead s.pc) = none ∧ t = s.fetchOpcode.raise .illegalOpcode) ∨
     (∃ op : Opcode, s.memRead s.pc = op.byte ∧ 255 < s.pc.toNat + op.operandCount ∧
       t = s.fetchOpcode.partlyLatched.raise .operandRange) ∨
     (∃ op : Opcode, s.memRead s.pc = op.byte ∧ s.pc.toNat + op.operandCount ≤ 255 ∧
       exec (s.fetchedInstr op) (s.fetched op) = .next t)) := by
  have hr := running_of_step h
  refine ⟨hr, ?_⟩
  rw [step_running hr] at h
  cases ho : Opcode.ofByte (s.memRead s.pc) with
  | none => rw [cycle_illegal ho] at h; cases h; exact .inl ⟨rfl, rfl⟩
  | some op =>
    have hb := Opcode.ofByte_eq_some.1 ho
    rcases Nat.lt_or_ge 255 (s.pc.toNat + op.operandCount) with hp | hp
    · rw [cycle_above hb hp] at h; cases h
      exact .inr (.inl ⟨op, hb, hp, rfl⟩)
    · exact .inr (.inr ⟨op, hb, hp, (cycle_exec hb hp).symm.trans h⟩)

/-- A RUNNING machine always has a next state. -/
theorem step_answers {s : State} (h : s.status = .running) : ∃ t, step s = .next t := by
  rw [step_running h]
  cases ho : Opcode.ofByte (s.memRead s.pc) with
  | none => exact ⟨_, cycle_illegal ho⟩
  | some op =>
    have hb := Opcode.ofByte_eq_some.1 ho
    rcases Nat.lt_or_ge 255 (s.pc.toNat + op.operandCount) with hp | hp
    · exact ⟨_, cycle_above hb hp⟩
    · rw [cycle_exec hb hp]; exact exec_answers ..

/-- Loading the latches changes no other component. -/
theorem fetched_frame (s : State) (op : Opcode) :
    (s.fetched op).mem = s.mem ∧ (s.fetched op).x = s.x ∧ (s.fetched op).pc = s.pc ∧
      (s.fetched op).status = s.status ∧ (s.fetched op).faultCause = s.faultCause ∧
      (s.fetched op).faultPc = s.faultPc ∧ (s.fetched op).out = s.out := by
  cases op <;> exact ⟨rfl, rfl, rfl, rfl, rfl, rfl, rfl⟩

/-- Everything a host action can do (R190, R195, R197). -/
theorem hostAct_cases (a : HostAction) (s : State) :
    (a = .reset ∧ hostAct a s = State.reset) ∨ (a ≠ .reset ∧ hostAct a s = s) ∨
    (s.status = .idle ∧ ((∃ k b, a = .load k b ∧ hostAct a s = s.memWrite k b) ∨
      (a = .start ∧ hostAct a s = s.setStatus .running))) := by
  cases a with
  | reset => exact .inl ⟨rfl, rfl⟩
  | load k b =>
    by_cases h : s.status = .idle
    · exact .inr (.inr ⟨h, .inl ⟨k, b, rfl, by simp [hostAct, h]⟩⟩)
    · exact .inr (.inl ⟨by simp, by simp [hostAct, h]⟩)
  | start =>
    by_cases h : s.status = .idle
    · exact .inr (.inr ⟨h, .inr ⟨rfl, by simp [hostAct, h]⟩⟩)
    · exact .inr (.inl ⟨by simp, by simp [hostAct, h]⟩)

/-- A load has no effect outside IDLE (R197); in IDLE it writes one cell. -/
theorem hostAct_load {s : State} (a b : Byte) (h : s.status = .idle) :
    hostAct (.load a b) s = s.memWrite a b := by
  simp [hostAct, h]

/-- Loading a sequence in IDLE: each byte reads back at its place, every other cell and component is
unchanged. -/
theorem loadFrom_spec (bs : List Byte) {s : State} (a : Nat) (h : s.status = .idle)
    (hlen : a + bs.length ≤ 256) :
    ∃ m, loadFrom a bs s = { s with mem := m } ∧
      ∀ k : Byte, ({ s with mem := m } : State).memRead k =
        if a ≤ k.toNat ∧ k.toNat < a + bs.length then bs.getD (k.toNat - a) 0#8 else s.memRead k := by
  induction bs generalizing a s with
  | nil =>
    refine ⟨s.mem, rfl, fun k => ?_⟩
    rw [if_neg (by simp only [List.length_nil]; omega)]
  | cons b bs ih =>
    simp only [List.length_cons] at hlen ⊢
    have hi : (s.memWrite (BitVec.ofNat 8 a) b).status = .idle := h
    obtain ⟨m, hm, hread⟩ := ih (a + 1) hi (by omega)
    refine ⟨m, ?_, fun k => ?_⟩
    · rw [loadFrom, hostAct_load _ _ h, hm]; rfl
    · have hk := k.isLt
      have := hread k
      simp only [State.memWrite_memRead] at this
      refine (Eq.trans ?_ this).trans ?_
      · rfl
      · have ha : (k = BitVec.ofNat 8 a) ↔ k.toNat = a := by
          rw [← BitVec.toNat_inj, BitVec.toNat_ofNat, Nat.mod_eq_of_lt (by omega)]
        by_cases hka : k.toNat = a
        · rw [if_neg (by omega), if_pos (ha.2 hka), if_pos (by omega), hka]
          simp
        · rw [if_neg (c := k = _) (fun e => hka (ha.1 e))]
          by_cases hin : a + 1 ≤ k.toNat ∧ k.toNat < a + 1 + bs.length
          · rw [if_pos hin, if_pos (by omega), show k.toNat - a = (k.toNat - (a + 1)) + 1 by omega]
            simp
          · rw [if_neg hin, if_neg (by omega)]

end Sys2Proof.Machine
end

