-- ==== Sys2Proof/Laws/PerInstr.lean ====
section
/-! SUPPORT. A fact about every instruction as syntax, one lemma per constructor: the shape of its
encoding (spec/30_encoding.md rules R65, R66, R72). -/

namespace Sys2Proof.Laws.EncodingShape

/-- An encoding is the opcode byte followed by exactly the operand bytes its format has, and every
register operand is one of those bytes. -/
def Statement (i : Instr) : Prop :=
  ∃ operands, encode i = i.opcode.byte :: operands ∧ operands.length = i.opcode.operandCount ∧
    i.opcode.build (operands.getD 0 0#8) (operands.getD 1 0#8) = i ∧ ∀ b ∈ i.regOperands, b ∈ operands

theorem hlt : Statement .hlt := ⟨[], rfl, rfl, rfl, by simp [Instr.regOperands]⟩
theorem ldi (r imm : Byte) : Statement (.ldi r imm) := ⟨[r, imm], rfl, rfl, rfl, by simp [Instr.regOperands]⟩
theorem prn (r : Byte) : Statement (.prn r) := ⟨[r], rfl, rfl, rfl, by simp [Instr.regOperands]⟩
theorem mul (a b : Byte) : Statement (.mul a b) := ⟨[a, b], rfl, rfl, rfl, by simp [Instr.regOperands]⟩
theorem push (r : Byte) : Statement (.push r) := ⟨[r], rfl, rfl, rfl, by simp [Instr.regOperands]⟩
theorem pop (r : Byte) : Statement (.pop r) := ⟨[r], rfl, rfl, rfl, by simp [Instr.regOperands]⟩

end Sys2Proof.Laws.EncodingShape
end

