-- ==== Sys2Proof/Laws/Text.lean ====
section
/-! SUPPORT. What the functions of the image text do: the comment's removal, the trimming of white space,
and the value of binary digits. -/

namespace Sys2Proof.Machine

/-- What stands before the first `#` of a line, and what is left: nothing, or a comment. -/
theorem beforeComment_append (line : List Char) :
    ∃ rest, line = line.takeWhile (· ≠ '#') ++ rest ∧ (rest = [] ∨ ∃ comment, rest = '#' :: comment) := by
  induction line with
  | nil => exact ⟨[], rfl, .inl rfl⟩
  | cons c cs ih =>
    by_cases h : c = '#'
    · subst h; exact ⟨_, rfl, .inr ⟨cs, rfl⟩⟩
    · obtain ⟨rest, e, hr⟩ := ih
      exact ⟨rest, by simpa [h] using e, hr⟩

/-- A text without `#`, followed by nothing or by a comment, is what stands before the comment. -/
theorem beforeComment_of_append {text rest : List Char} (h : '#' ∉ text)
    (hr : rest = [] ∨ ∃ comment, rest = '#' :: comment) :
    (text ++ rest).takeWhile (· ≠ '#') = text := by
  have ht : ∀ c ∈ text, decide (c ≠ '#') = true := fun c hc => by
    simpa using fun e : c = '#' => h (e ▸ hc)
  rw [List.takeWhile_append_of_pos ht]
  obtain rfl | ⟨comment, rfl⟩ := hr <;> simp

/-- Dropping white space at the front leaves a suffix; what it drops is blank. -/
theorem dropBlank_append (text : List Char) :
    ∃ before, IsBlank before ∧ text = before ++ text.dropWhile Char.isWhitespace :=
  ⟨text.takeWhile Char.isWhitespace, fun _ hc => List.mem_takeWhile_imp hc,
    List.takeWhile_append_dropWhile.symm⟩

/-- White space before a text that does not start with any is dropped. -/
theorem dropBlank_of_append {before : List Char} (text : List Char) (h : IsBlank before) :
    (before ++ text).dropWhile Char.isWhitespace = text.dropWhile Char.isWhitespace :=
  List.dropWhile_append_of_pos h

/-- Trimming takes a blank run off each end and nothing else. -/
theorem trimLine_append (line : List Char) :
    ∃ before behind, IsBlank before ∧ IsBlank behind ∧ line = before ++ trimLine line ++ behind := by
  obtain ⟨before, hb, e⟩ := dropBlank_append line
  obtain ⟨behind, hh, e'⟩ := dropBlank_append (line.dropWhile Char.isWhitespace).reverse
  refine ⟨before, behind.reverse, hb, fun c hc => hh c (List.mem_reverse.1 hc), ?_⟩
  rw [List.append_assoc, trimLine, ← List.reverse_append, ← e', List.reverse_reverse, ← e]

/-- A text with no white space in it is what trimming leaves of it. -/
theorem trimLine_of_append {before behind text : List Char} (hb : IsBlank before) (hh : IsBlank behind)
    (ht : ∀ c ∈ text, c.isWhitespace = false) : trimLine (before ++ text ++ behind) = text := by
  have drop_text : ∀ l : List Char, (∀ c ∈ l, c.isWhitespace = false) → l.dropWhile Char.isWhitespace = l :=
    fun l hl => by cases l <;> simp_all
  by_cases h0 : text = []
  · subst h0
    rw [List.append_nil, trimLine, dropBlank_of_append _ hb]
    rw [show behind.dropWhile Char.isWhitespace = [] from List.dropWhile_eq_nil_iff.2 hh]; rfl
  · have hd : (text ++ behind).dropWhile Char.isWhitespace = text ++ behind := by
      cases text with
      | nil => exact absurd rfl h0
      | cons c cs => simp [ht c (by simp)]
    have hr : IsBlank behind.reverse := fun c hc => hh c (List.mem_reverse.1 hc)
    rw [trimLine, List.append_assoc, dropBlank_of_append _ hb, hd, List.reverse_append,
      dropBlank_of_append _ hr, drop_text _ fun c hc => ht c (List.mem_reverse.1 hc), List.reverse_reverse]

/-- The value of `n` digits after `acc` is below `(acc + 1) * 2 ^ n`. -/
theorem binaryValue_lt {digits : List Char} {acc v : Nat} (h : binaryValue digits acc = some v) :
    v < (acc + 1) * 2 ^ digits.length := by
  induction digits generalizing acc with
  | nil => cases h; simp
  | cons c cs ih =>
    rw [binaryValue] at h
    have : 0 < 2 ^ cs.length := Nat.two_pow_pos _
    split_ifs at h <;> have := ih h <;> simp only [List.length_cons, Nat.pow_succ] <;> nlinarith

/-- Digits of one length with one value are the same digits. -/
theorem binaryValue_inj {ds es : List Char} {a b v : Nat} (hl : ds.length = es.length)
    (hd : binaryValue ds a = some v) (he : binaryValue es b = some v) : a = b ∧ ds = es := by
  induction ds generalizing es a b with
  | nil =>
    obtain rfl := List.length_eq_zero_iff.1 hl.symm
    cases hd; cases he; exact ⟨rfl, rfl⟩
  | cons c cs ih =>
    obtain _ | ⟨e, es⟩ := es
    · cases hl
    · have hl' : cs.length = es.length := Nat.succ.inj hl
      rw [binaryValue] at hd he
      split_ifs at hd he with hc0 he0 he1 hc1 he0 he1 <;> obtain ⟨h1, rfl⟩ := ih hl' hd he <;>
        first
        | exact absurd h1 (by omega)
        | exact ⟨by omega, by rw [‹c = _›, ‹e = _›]⟩

set_option maxRecDepth 4000 in
/-- The 8 digits of a byte have its value. -/
theorem binaryValue_binaryDigits (b : Byte) : binaryValue (binaryDigits b) 0 = some b.toNat := by
  have key : ∀ v : Fin 256, binaryValue (binaryDigits (BitVec.ofNat 8 v.val)) 0 = some v.val := by decide
  simpa using key ⟨b.toNat, b.isLt⟩

@[simp] theorem binaryDigits_length (b : Byte) : (binaryDigits b).length = 8 := by simp [binaryDigits]

/-- A digit is neither white space nor a `#`. -/
theorem binaryDigits_mem {b : Byte} {c : Char} (h : c ∈ binaryDigits b) :
    c.isWhitespace = false ∧ c ≠ '#' := by
  simp only [binaryDigits, List.mem_map] at h
  obtain ⟨k, -, rfl⟩ := h
  split <;> decide

/-- Eight characters give byte b exactly where they are its digits. -/
theorem binaryByte_eq_some {digits : List Char} {b : Byte} (hl : digits.length = 8) :
    (binaryValue digits 0).map (BitVec.ofNat 8) = some b ↔ digits = binaryDigits b := by
  constructor
  · intro h
    obtain ⟨v, hv, rfl⟩ := Option.map_eq_some_iff.1 h
    have := binaryValue_lt hv
    rw [hl] at this
    refine (binaryValue_inj (by simp [hl]) hv ((binaryValue_binaryDigits _).trans ?_)).2
    rw [BitVec.toNat_ofNat, Nat.mod_eq_of_lt (by omega)]
  · rintro rfl
    simp [binaryValue_binaryDigits]

end Sys2Proof.Machine
end

