-- ==== Sys2Proof/Tests/Slice0.lean ====
section
/-! SUPPORT. Tests, and for each statement with hypotheses a witness that meets them. Expected results are
the spec's own: the vectors of spec/95_test_vectors.md (named V-… below) and its worked examples (L1.…),
and words written out from the patterns of spec/30_encoding.md rules R71 and R79. -/

namespace Sys2Proof.Tests

open Sys2Proof.Machine

/-- A RUNNING machine with the given program counter, memory and register writes, else as after reset. -/
def running (pc : Byte) (mem : Memory) (regs : List (Reg × Byte)) : State :=
  { State.reset with
    pc := pc
    mem := mem
    x := regs.foldl (fun x w => x.set w.1 w.2) State.reset.x
    status := .running }

/-- The next state of an outcome, if it has one. -/
def next? : Result → Option State
  | .next t => some t
  | .fault _ => none
  | .refused _ => none

/-- What a test looks at in the state after a step: a function of it, none where there is no next state. -/
def after {α : Type} (s : State) (look : State → α) : Option α := (next? (step s)).map look

/-- Status, cause, fault address and pc, as a FAULT line of the vectors gives them. -/
def record (t : State) : Status × Byte × Byte × Byte := (t.status, t.faultCause, t.faultPc, t.pc)

/-! ## WellFormed refuses each ill-formed operand (R69) -/

theorem wellFormed_refuses_ldi_r8 : ¬ Instr.WellFormed (.ldi 8#8 5#8) := by decide
theorem wellFormed_refuses_prn_r8 : ¬ Instr.WellFormed (.prn 8#8) := by decide
theorem wellFormed_refuses_mul_a9 : ¬ Instr.WellFormed (.mul 9#8 0#8) := by decide
theorem wellFormed_refuses_mul_b8 : ¬ Instr.WellFormed (.mul 2#8 8#8) := by decide
theorem wellFormed_refuses_push_r255 : ¬ Instr.WellFormed (.push 255#8) := by decide
theorem wellFormed_refuses_pop_r9 : ¬ Instr.WellFormed (.pop 9#8) := by decide
theorem wellFormed_accepts_top : Instr.WellFormed (.mul 7#8 0#8) ∧ Instr.WellFormed (.ldi 7#8 255#8) := by decide

/-! ## Words written out bit by bit from R71 decode to their instruction -/

theorem word_hlt : decodeTableWord 8 0b00000001 = some .hlt := by decide
theorem word_ldi : decodeTableWord 24 0b00100101_00000000_10000010 = some (.ldi 0#8 37#8) := by decide
theorem word_prn : decodeTableWord 16 0b00000111_01000111 = some (.prn 7#8) := by decide
theorem word_mul : decodeTableWord 24 0b00000011_00000010_10100010 = some (.mul 2#8 3#8) := by decide
theorem word_push : decodeTableWord 16 0b00000101_01000101 = some (.push 5#8) := by decide
theorem word_pop : decodeTableWord 16 0b00000001_01000110 = some (.pop 1#8) := by decide
theorem word_operands_past_nbits_are_zero : decodeTableWord 8 0xFFFF82 = some (.ldi 0#8 0#8) := by decide
/-- V-ILL-2 and V-ILL-3: no opcode for ADD, and bits 7:6 do not make 0x81 legal. -/
theorem word_illegal : decodeTableWord 24 0x0100A0 = none ∧ decodeTableWord 8 0x81 = none := by decide
theorem word_runs_first_after_reset :
    after (State.reset.withFetchWord 24 0x250082) (fun t => (t.reg 0, record t)) =
      some (0x25#8, .running, 0#8, 0#8, 3#8) := by decide

/-! ## One step of each instruction -/

/-- V-HLT-2. -/
theorem test_hlt_at_255 :
    after (running 0xFF#8 [(0xFF, 0x01#8)] []) record = some (.halted, 0#8, 0#8, 0xFF#8) := by decide
/-- V-LDI-2 and V-LDI-4. -/
theorem test_ldi_r7_and_unchecked_immediate :
    after (running 0#8 [(0, 0x82#8), (1, 7#8), (2, 0x10#8)] []) (fun t => (t.reg 7, t.pc)) = some (0x10#8, 3#8) ∧
    after (running 0#8 [(0, 0x82#8), (1, 5#8), (2, 10#8)] []) (·.reg 5) = some 10#8 := by decide
/-- V-LDI-8 and V-LDI-7. -/
theorem test_ldi_top_of_memory :
    after (running 0xFD#8 [(0xFD, 0x82#8), (0xFE, 1#8), (0xFF, 7#8)] []) (fun t => (t.reg 1, record t)) =
      some (7#8, .faulted, 4#8, 0xFD#8, 0xFD#8) ∧
    after (running 0xFE#8 [(0xFE, 0x82#8), (0xFF, 9#8)] []) record = some (.faulted, 3#8, 0xFE#8, 0xFE#8) := by
  decide
/-- V-PRN-2 and V-PRN-3. -/
theorem test_prn_sp_and_illegal_register :
    after (running 0#8 [(0, 0x47#8), (1, 7#8)] []) (fun t => (t.out, t.pc)) = some ([244#8], 2#8) ∧
    after (running 0#8 [(0, 0x47#8), (1, 8#8)] []) (fun t => (t.out, record t)) =
      some ([], .faulted, 2#8, 0#8, 0#8) := by decide
/-- V-PRN-5. -/
theorem test_prn_pc_overflow :
    after (running 0xFE#8 [(0xFE, 0x47#8)] [(0, 5#8)]) (fun t => (t.out, record t)) =
      some ([5#8], .faulted, 4#8, 0xFE#8, 0xFE#8) := by decide
/-- V-MUL-1, V-MUL-3 and V-MUL-4. -/
theorem test_mul_wraps_and_keeps_its_source :
    after (running 0#8 [(0, 0xA2#8), (1, 2#8), (2, 3#8)] [(2, 9#8), (3, 5#8)]) (fun t => (t.reg 2, t.reg 3, t.pc)) =
      some (45#8, 5#8, 3#8) ∧
    after (running 0#8 [(0, 0xA2#8), (2, 1#8)] [(0, 255#8), (1, 255#8)]) (·.reg 0) = some 1#8 ∧
    after (running 0#8 [(0, 0xA2#8), (2, 1#8)] [(0, 200#8), (1, 3#8)]) (·.reg 0) = some 88#8 := by decide
/-- V-MUL-6 and V-MUL-10. -/
theorem test_mul_same_register_and_sp :
    after (running 0#8 [(0, 0xA2#8), (1, 1#8), (2, 1#8)] [(1, 15#8)]) (·.reg 1) = some 225#8 ∧
    after (running 0#8 [(0, 0xA2#8), (1, 7#8)] [(0, 2#8)]) (·.reg 7) = some 0xE8#8 := by decide
/-- V-PUSH-3 and V-PUSH-4. -/
theorem test_push_sp_and_address_zero :
    after (running 0x20#8 [(0x20, 0x45#8), (0x21, 7#8)] []) (fun t => (t.reg 7, t.memRead 0xF3#8)) =
      some (0xF3#8, 0xF3#8) ∧
    after (running 0x20#8 [(0x20, 0x45#8)] [(7, 1#8), (0, 0x2A#8)]) (fun t => (t.reg 7, t.memRead 0#8)) =
      some (0#8, 0x2A#8) := by decide
/-- V-PUSH-7 and V-PUSH-8. -/
theorem test_push_overflow_before_pc_overflow :
    after (running 0xFE#8 [(0xFE, 0x45#8)] [(7, 0#8)]) record = some (.faulted, 5#8, 0xFE#8, 0xFE#8) ∧
    after (running 0xFE#8 [(0xFE, 0x45#8)] [(0, 0x2A#8)]) (fun t => (t.memRead 0xF3#8, record t)) =
      some (0x2A#8, .faulted, 4#8, 0xFE#8, 0xFE#8) := by decide
/-- V-POP-1 and V-POP-3. -/
theorem test_pop_and_pop_sp :
    after (running 0#8 [(0, 0x46#8), (1, 1#8), (0xF3, 0x2A#8)] [(7, 0xF3#8)])
      (fun t => (t.reg 1, t.reg 7, t.memRead 0xF3#8)) = some (0x2A#8, 0xF4#8, 0x2A#8) ∧
    after (running 0#8 [(0, 0x46#8), (1, 7#8), (0xF3, 0x10#8)] [(7, 0xF3#8)]) (·.reg 7) = some 0x11#8 := by decide
/-- V-POP-4, V-POP-5 and V-POP-8. -/
theorem test_pop_boundaries :
    after (running 0#8 [(0, 0x46#8)] [(7, 255#8), (0, 0x55#8)]) (fun t => (t.reg 0, t.reg 7, record t)) =
      some (0x55#8, 255#8, .faulted, 6#8, 0#8, 0#8) ∧
    after (running 0#8 [(0, 0x46#8), (1, 7#8), (0xF3, 255#8)] [(7, 0xF3#8)]) record =
      some (.faulted, 6#8, 0#8, 0#8) ∧
    after (running 0#8 [(0, 0x46#8), (1, 3#8), (0xFE, 7#8)] [(7, 0xFE#8)]) (fun t => (t.reg 3, t.reg 7)) =
      some (7#8, 255#8) := by decide
/-- V-ILL-1, V-ILL-5 and V-ILL-6. -/
theorem test_illegal_opcode_before_operand_range :
    after (running 0#8 [] []) record = some (.faulted, 1#8, 0#8, 0#8) ∧
    after (running 0xFF#8 [(0xFF, 0x82#8)] []) record = some (.faulted, 3#8, 0xFF#8, 0xFF#8) ∧
    after (running 0xFF#8 [] []) record = some (.faulted, 1#8, 0xFF#8, 0xFF#8) := by decide
/-- L1.5: the image `01` halts in one step. -/
theorem test_launch_hlt :
    after (launch [0x01#8]) (fun t => (record t, t.out, t.reg 7)) = some ((.halted, 0#8, 0#8, 0#8), [], 0xF4#8) := by
  decide
/-- L1.7: blank lines, comments and malformed lines are skipped. -/
theorem test_image_text :
    imageOfText ("# halt-only program".toList ++ ['\n', '\n'] ++ "00000001   # HLT".toList ++ ['\n'] ++
      "not-a-byte".toList) = [0x01#8] := by decide
/-- R76's own examples. -/
theorem test_assemble :
    assemble "LDI R7 0xF0".toList = some (.ldi 7#8 0xF0#8) ∧ assemble "MUL 2 3".toList = some (.mul 2#8 3#8) ∧
    assemble "HLT".toList = some .hlt ∧ assemble "PRN R8".toList = none := by decide
/-- L1.1: the source's program text and the image the spec gives for it. -/
theorem test_assemble_program :
    assembleProgram "LDI R0 37; PRN R0; HLT".toList = some [0x82#8, 0x00#8, 0x25#8, 0x47#8, 0x00#8, 0x01#8] := by
  decide

/-! ## Witnesses: a state and operands that meet every hypothesis of a statement, at the boundaries of
its clauses -/

/-- Every `running …` state below meets the hypothesis that the status is RUNNING. -/
theorem running_is_running (pc : Byte) (mem : Memory) (regs : List (Reg × Byte)) :
    (running pc mem regs).status = .running := rfl

theorem witness_OpcodeMapDecodes : (0xA0#8 : Byte) ∉ [0x01#8, 0x82#8, 0x47#8, 0xA2#8, 0x45#8, 0x46#8] := by decide
theorem witness_DecodeAndEncodeAgree :
    decode [0x82#8, 9#8, 255#8, 1#8] = .ok (.ldi 9#8 255#8, [1#8]) := by rfl
theorem witness_LengthIsKnownFromTheOpcode :
    tableOperandCount 0x82#8 = some 2 ∧ 2 ≤ [1#8, 2#8].length ∧ ¬ 2 ≤ [1#8].length ∧
    tableOperandCount 0x01#8 = some 0 := by decide
theorem witness_AssemblyReadsBack : Instr.WellFormed (.ldi 7#8 255#8) ∧ Instr.WellFormed .hlt := by decide
/-- R78's line forms: three spaces before the comment, none before it, no comment at all. -/
theorem test_image_line :
    imageLine "10000010   # LDI".toList = some 0x82#8 ∧ imageLine " 10000010# LDI".toList = some 0x82#8 ∧
    imageLine "00000001".toList = some 1#8 := by decide
/-- White space between the digits, nine digits, and digits inside a comment. -/
theorem test_image_line_malformed :
    imageLine "1000 0010".toList = none ∧ imageLine "100000101".toList = none ∧
    imageLine "# 10000010".toList = none := by decide
theorem witness_ImageLineGivesItsByte :
    IsBlank [] ∧ IsBlank [' ', ' ', ' '] ∧ [['1'], []] ≠ ([] : List (List Char)) ∧
    ∀ line ∈ ([['1'], []] : List (List Char)), '\n' ∉ line := by simp [IsBlank]
theorem witness_StepRunsTheDecodedInstruction :
    (running 0xFD#8 [(0xFD, 0x82#8), (0xFE, 1#8), (0xFF, 7#8)] []).status = .running ∧
    decode ((running 0xFD#8 [(0xFD, 0x82#8), (0xFE, 1#8), (0xFF, 7#8)] []).codeBytes 3) = .ok (.ldi 1#8 7#8, []) ∧
    decode ((running 0xFF#8 [(0xFF, 1#8)] []).codeBytes 3) = .ok (.hlt, []) := ⟨rfl, rfl, rfl⟩
theorem witness_StepExistsExactlyInRunning :
    State.reset.status ≠ .running ∧ hostAct .start State.reset ≠ State.reset ∧
    hostAct (.load 255#8 1#8) State.reset ≠ State.reset := by decide
theorem witness_PcAdvancesByTheLength :
    tableFault (running 0xFF#8 [(0xFF, 1#8)] []) = none ∧ tableFault (running 0xFD#8 [(0xFD, 0x47#8)] []) = none ∧
    tableFault (running 0xFC#8 [(0xFC, 0x82#8)] []) = none := by decide
/-- For the statements about every step: a HLT, a retirement, a fault, and a PUSH. -/
theorem witness_step_answers :
    (∃ t, step (running 0xFF#8 [(0xFF, 1#8)] []) = .next t ∧ t.status = .halted) ∧
    (∃ t, step (running 0#8 [(0, 0x47#8)] []) = .next t ∧ t.status = .running) ∧
    (∃ t, step (running 0#8 [] []) = .next t ∧ t.status = .faulted ∧ t.faultCause ≠ 4#8) ∧
    (∃ t, step (running 0xFE#8 [(0xFE, 0x45#8)] [(0, 1#8)]) = .next t ∧ t.status = .faulted ∧ t.faultCause = 4#8) :=
  ⟨⟨_, rfl, rfl⟩, ⟨_, rfl, rfl⟩, ⟨_, rfl, rfl, by decide⟩, ⟨_, rfl, rfl, rfl⟩⟩
theorem witness_RegistersChangeOnlyWhereNamed :
    (∃ t, step (running 0#8 [(0, 0x82#8), (1, 7#8), (2, 1#8)] []) = .next t ∧ t.reg 7 ≠ State.reset.reg 7) ∧
    (∃ t, step (running 0#8 [(0, 0x45#8), (1, 1#8)] []) = .next t ∧ t.reg 7 ≠ State.reset.reg 7) :=
  ⟨⟨_, rfl, by decide⟩, ⟨_, rfl, by decide⟩⟩
/-- Program P2 of the spec at its PUSH: it writes the opcode of the next instruction. -/
theorem witness_NextFetchSeesThePushedByte :
    ∃ t u, step (running 6#8 [(6, 0x45#8), (8, 0x47#8), (10, 1#8)] [(0, 1#8), (7, 9#8)]) = .next t ∧
      t.status = .running ∧ t.pc = 9#8 - 1#8 ∧ step t = .next u ∧ u.status = .halted :=
  ⟨_, _, rfl, rfl, by decide, rfl, rfl⟩
theorem witness_LdiCompletes : (running 0xFC#8 [] []).pc.toNat + 3 ≤ 255 := by decide
theorem witness_PrnCompletes : (running 0xFD#8 [] []).pc.toNat + 2 ≤ 255 := by decide
theorem witness_MulCompletes : (running 0xFC#8 [] []).pc.toNat + 3 ≤ 255 := by decide
theorem witness_PushCompletes :
    (running 0xFD#8 [] [(7, 1#8)]).pc.toNat + 2 ≤ 255 ∧ (running 0xFD#8 [] [(7, 1#8)]).reg 7 ≠ 0#8 := by decide
/-- For q = 3 with SP at 254, and for q = 7 with SP at 255 and 254 on the stack. -/
theorem witness_PopCompletes :
    (running 0xFD#8 [] [(7, 254#8)]).pc.toNat + 2 ≤ 255 ∧ (running 0xFD#8 [] [(7, 254#8)]).reg 7 ≠ 255#8 ∧
    (running 0xFD#8 [(255, 254#8)] [(7, 255#8)]).memRead ((running 0xFD#8 [(255, 254#8)] [(7, 255#8)]).reg 7) ≠ 255#8 := by
  decide
theorem witness_HltRule : (running 0xFF#8 [(0xFF, 1#8)] []).memRead 0xFF#8 = 0x01#8 := by decide
/-- Each clause of LdiRule at a boundary: pc 255 and 254, index byte 8, pc 253, and a retirement at 252. -/
theorem witness_LdiRule :
    (running 0xFF#8 [(0xFF, 0x82#8)] []).memRead 0xFF#8 = 0x82#8 ∧
    (running 0xFE#8 [(0xFE, 0x82#8)] []).memRead 0xFE#8 = 0x82#8 ∧
    7 < ((running 0xFD#8 [(0xFD, 0x82#8), (0xFE, 8#8)] []).memRead (0xFD#8 + 1#8)).toNat ∧
    ¬ 7 < ((running 0xFD#8 [(0xFD, 0x82#8), (0xFE, 7#8)] []).memRead (0xFD#8 + 1#8)).toNat ∧
    (running 0xFC#8 [(0xFC, 0x82#8), (0xFD, 7#8)] []).memRead 0xFC#8 = 0x82#8 := by decide
theorem witness_PrnRule :
    (running 0xFF#8 [(0xFF, 0x47#8)] []).memRead 0xFF#8 = 0x47#8 ∧
    7 < ((running 0xFE#8 [(0xFE, 0x47#8), (0xFF, 8#8)] []).memRead (0xFE#8 + 1#8)).toNat ∧
    ¬ 7 < ((running 0xFE#8 [(0xFE, 0x47#8), (0xFF, 7#8)] []).memRead (0xFE#8 + 1#8)).toNat ∧
    (running 0xFD#8 [(0xFD, 0x47#8)] []).memRead 0xFD#8 = 0x47#8 := by decide
theorem witness_MulRule :
    (running 0xFE#8 [(0xFE, 0xA2#8)] []).memRead 0xFE#8 = 0xA2#8 ∧
    7 < ((running 0xFD#8 [(0xFD, 0xA2#8), (0xFE, 8#8)] []).memRead (0xFD#8 + 1#8)).toNat ∧
    7 < ((running 0xFD#8 [(0xFD, 0xA2#8), (0xFE, 7#8), (0xFF, 8#8)] []).memRead (0xFD#8 + 2#8)).toNat ∧
    (running 0xFC#8 [(0xFC, 0xA2#8), (0xFD, 7#8), (0xFE, 7#8)] []).memRead 0xFC#8 = 0xA2#8 := by decide
theorem witness_PushRule :
    (running 0xFF#8 [(0xFF, 0x45#8)] []).memRead 0xFF#8 = 0x45#8 ∧
    7 < ((running 0xFE#8 [(0xFE, 0x45#8), (0xFF, 8#8)] []).memRead (0xFE#8 + 1#8)).toNat ∧
    (running 0xFE#8 [(0xFE, 0x45#8), (0xFF, 7#8)] [(7, 0#8)]).reg 7 = 0#8 ∧
    (running 0xFD#8 [(0xFD, 0x45#8), (0xFE, 7#8)] [(7, 1#8)]).reg 7 = 1#8 := by decide
theorem witness_PopRule :
    (running 0xFF#8 [(0xFF, 0x46#8)] []).memRead 0xFF#8 = 0x46#8 ∧
    7 < ((running 0xFE#8 [(0xFE, 0x46#8), (0xFF, 8#8)] []).memRead (0xFE#8 + 1#8)).toNat ∧
    (running 0xFE#8 [(0xFE, 0x46#8), (0xFF, 6#8)] [(7, 255#8)]).reg 7 = 255#8 ∧
    (running 0xFD#8 [(0xFD, 0x46#8), (0xFE, 7#8), (255, 254#8)] [(7, 255#8)]).memRead 255#8 = 254#8 := by decide
theorem witness_IllegalOpcodeFaults :
    tableOperandCount ((running 0xFF#8 [(0xFF, 0xA0#8)] []).memRead 0xFF#8) = none ∧
    tableOperandCount ((running 0#8 [] []).memRead 0#8) = none ∧
    after (running 0xFF#8 [(0xFF, 0xA0#8)] []) record = some (.faulted, 1#8, 0xFF#8, 0xFF#8) := by decide
theorem witness_OperandRangeFaults :
    (running 0xFF#8 [(0xFF, 0x47#8)] []).memRead 0xFF#8 ∈ [0x47#8, 0x45#8, 0x46#8] ∧
    (running 0xFE#8 [(0xFE, 0xA2#8)] []).memRead 0xFE#8 ∈ [0x82#8, 0xA2#8] ∧
    (running 0xFF#8 [(0xFF, 0x82#8)] []).memRead 0xFF#8 ∈ [0x82#8, 0xA2#8] := by decide
theorem witness_IllegalRegisterFaults :
    7 < (8#8 : Byte).toNat ∧ Instr.mul 0#8 8#8 ∈ ([.ldi 8#8 0#8, .prn 8#8, .mul 8#8 0#8, .mul 0#8 8#8, .push 8#8, .pop 8#8] : List Instr) := by
  decide
theorem witness_PushAtZeroOverflows : (running 0#8 [] [(7, 0#8)]).reg 7 = 0#8 := by decide
theorem witness_PopAtTopUnderflows :
    (running 0#8 [] [(7, 255#8)]).reg 7 = 255#8 ∧
    (running 0#8 [(0xF4, 255#8)] []).memRead ((running 0#8 [(0xF4, 255#8)] []).reg 7) = 255#8 := by decide
/-- At the two ends of the other addresses, 0 and 253, for a PUSH that stands at 254. -/
theorem witness_PcOverflowKeepsTheEffects :
    255 < (running 0xFE#8 [] []).pc.toNat + (Instr.push 0#8).opcode.length ∧
    (0xFD#8 : Byte).toNat + (Instr.push 0#8).opcode.length ≤ 255 ∧
    (∃ u, exec (.push 0#8) ((running 0xFE#8 [] []).setPc 0#8) = .next u ∧ u.status = .running) ∧
    (∃ u, exec (.push 0#8) ((running 0xFE#8 [] []).setPc 0xFD#8) = .next u ∧ u.status = .running) :=
  ⟨by decide, by decide, ⟨_, rfl, rfl⟩, ⟨_, rfl, rfl⟩⟩
theorem witness_FirstFaultThatAppliesIsReported :
    tableFault (running 0xFE#8 [(0xFE, 0xA2#8), (0xFF, 9#8)] []) = some 3#8 ∧
    tableFault (running 0xFE#8 [(0xFE, 0x45#8)] [(7, 0#8)]) = some 5#8 ∧
    tableFault (running 0#8 [(0, 0xA2#8), (1, 9#8), (2, 8#8)] []) = some 2#8 := by decide
theorem witness_AluBadOpIsNeverRaised :
    ∃ t, exec .hlt { running 0#8 [] [] with faultCause := 7#8 } = .next t ∧ t.faultCause = 7#8 := ⟨_, rfl, rfl⟩
theorem witness_PopUndoesPush :
    (running 0xFB#8 [] [(7, 1#8)]).reg 7 ≠ 0#8 ∧ (running 0xFB#8 [] []).pc.toNat + 4 ≤ 255 ∧ (0 : Reg) ≠ 7 := by decide
theorem witness_LastPushedIsFirstPopped :
    2 ≤ ((running 0xF7#8 [] [(7, 2#8)]).reg 7).toNat ∧ (running 0xF7#8 [] []).pc.toNat + 8 ≤ 255 ∧
    (0 : Reg) ≠ 7 ∧ (1 : Reg) ≠ 7 ∧ (0 : Reg) ≠ 1 := by decide
theorem witness_PushPopOfSpRestoresIt :
    (running 0xFB#8 [] [(7, 255#8)]).reg 7 ≠ 0#8 ∧ (running 0xFB#8 [] []).pc.toNat + 4 ≤ 255 := by decide
theorem witness_ResetGivesTheSpecsValues :
    ({ State.reset with status := .halted } : State).status = .halted ∧ HostAction.start ≠ .reset := by decide
theorem witness_StartRunsOnlyFromIdle :
    State.reset.status = .idle ∧ ({ State.reset with status := .halted } : State).status ≠ .idle := by decide
theorem witness_HostPortsAreLimited :
    State.reset.status = .idle ∧ (running 0#8 [] []).status ≠ .idle ∧ (running 0#8 [] []).status = .running ∧
    HostAction.load 0#8 0#8 ≠ .reset := by decide
/-- What the out port delivers (R113): one value in a PRN that retires and in one that ends in PC_OVERFLOW
(V-PRN-5), none in a PRN whose index byte is 8 (V-PRN-3) or whose operand does not exist, none in HLT. -/
theorem witness_HostPortsAreLimited_out :
    after (running 0#8 [(0, 0x47#8)] [(0, 5#8)]) (outPort (running 0#8 [] [])) = some [5#8] ∧
    after (running 0xFE#8 [(0xFE, 0x47#8)] [(0, 5#8)]) (outPort (running 0#8 [] [])) = some [5#8] ∧
    after (running 0#8 [(0, 0x47#8), (1, 8#8)] []) (outPort (running 0#8 [] [])) = some [] ∧
    after (running 0xFF#8 [(0xFF, 0x47#8)] []) (outPort (running 0#8 [] [])) = some [] ∧
    after (running 0#8 [(0, 0x01#8)] []) (outPort (running 0#8 [] [])) = some [] := by decide
theorem witness_ImageIsPlacedFromAddressZero :
    State.reset.status = .idle ∧ (List.replicate 256 (1#8 : Byte)).length ≤ 256 ∧
    ([] : List Byte).length ≤ 256 := ⟨rfl, by rw [List.length_replicate], by decide⟩
theorem witness_OversizeImageIsRefused : 256 < (List.replicate 257 (1#8 : Byte)).length := by
  rw [List.length_replicate]; decide
theorem witness_FirstStepFetchesAddressZero : ([0x01#8] : List Byte).length ≤ 256 := by decide
theorem witness_StepKeepsTheInvariant :
    State.Inv (running 0#8 [(0, 0x45#8)] []) ∧ ∃ t, step (running 0#8 [(0, 0x45#8)] []) = .next t :=
  ⟨⟨by decide, by decide, by decide⟩, _, rfl⟩
theorem witness_HostActionKeepsTheInvariant : State.Inv State.reset := ⟨by decide, by decide, by decide⟩
theorem witness_EveryRunEndsWithin128Steps :
    (running 0#8 [] []).status = .running ∧ ([0x47#8, 7#8] : List Byte).length ≤ 256 := by decide

end Sys2Proof.Tests
end

section
/-! PROOFS. What a whole step can do, said once, and from it the statements on the state of spec/10_state.md:
the frames of memory, registers and output, what no step reads, and the invariant. -/

namespace Sys2Proof.Machine

/-! ## What a step can do -/

/-- Memory, registers and output are as before. -/
def SameData (s t : State) : Prop := t.mem = s.mem ∧ t.x = s.x ∧ t.out = s.out

theorem SameData.memRead {s t : State} (h : SameData s t) (a : Byte) : t.memRead a = s.memRead a :=
  congrArg (Memory.read a.toNat) h.1

theorem SameData.reg {s t : State} (h : SameData s t) (q : Reg) : t.reg q = s.reg q := by
  rw [State.reg, h.2.1, State.reg]

/-- No check before a commit raises the reserved ALU_BAD_OP (R167). -/
theorem faultBefore_ne_aluBadOp {i : Instr} {s : State} {c : FaultCause} (h : faultBefore i s = some c) :
    c ≠ .aluBadOp := by
  obtain ⟨rfl, -⟩ | ⟨rfl, -⟩ | ⟨rfl, -⟩ := faultBefore_some h <;> decide

theorem wellFormed_of_faultBefore_none {i : Instr} {s : State} (h : faultBefore i s = none) :
    i.WellFormed := by
  by_contra hw
  rw [faultBefore.eq_def, if_neg hw] at h
  cases h

/-- The fetch stages change the latches alone, and IR holds the opcode byte. -/
theorem fetched_eq_latched (s : State) (op : Opcode) :
    ∃ v1 v2, s.fetched op = s.latched [s.memRead s.pc, v1, v2] := by
  cases op <;> exact ⟨_, _, rfl⟩

/-- A step stops with a fault entry and nothing but the latches changed, or it commits the fetched
instruction and retires it (R98, R99). -/
theorem step_stops_or_finishes {s t : State} (h : step s = .next t) :
    (∃ v1 v2 c, c ≠ .aluBadOp ∧ t = (s.latched [s.memRead s.pc, v1, v2]).raise c) ∨
    (∃ op : Opcode, s.memRead s.pc = op.byte ∧ (s.fetchedInstr op).WellFormed ∧
      finish (s.fetchedInstr op) (s.fetched op) = .next t) := by
  obtain ⟨-, ⟨-, rfl⟩ | ⟨op, -, -, rfl⟩ | ⟨op, hop, -, hexec⟩⟩ := step_next h
  · exact .inl ⟨_, _, .illegalOpcode, by decide, rfl⟩
  · exact .inl ⟨_, _, .operandRange, by decide, rfl⟩
  · rw [exec_eq] at hexec
    cases hf : faultBefore (s.fetchedInstr op) (s.fetched op) with
    | some c =>
      rw [hf] at hexec
      obtain ⟨v1, v2, hv⟩ := fetched_eq_latched s op
      cases hexec
      exact .inl ⟨v1, v2, c, faultBefore_ne_aluBadOp hf, by rw [hv]⟩
    | none =>
      rw [hf] at hexec
      exact .inr ⟨op, hop, wellFormed_of_faultBefore_none hf, hexec⟩

/-- Retirement keeps memory, registers, output and IR as the commit left them. -/
theorem finish_frame {i : Instr} {s t : State} (h : finish i s = .next t) :
    SameData (commit i s) t ∧ t.ir = s.ir := by
  obtain ⟨-, -, -, hir, -, -⟩ := commit_frame i s
  by_cases hi : i = .hlt
  · subst hi; cases h; exact ⟨⟨rfl, rfl, rfl⟩, hir⟩
  · rw [finish_eq hi] at h
    obtain ⟨-, rfl⟩ | ⟨-, rfl⟩ := retire_next h <;> exact ⟨⟨rfl, rfl, rfl⟩, hir⟩

theorem fetched_sameData (s : State) (op : Opcode) : SameData s (s.fetched op) := by
  obtain ⟨hmem, hx, -, -, -, -, hout⟩ := fetched_frame s op
  exact ⟨hmem, hx, hout⟩

/-- Memory, registers and output after a step: as before it, or as the fetched instruction's commit left
them. -/
theorem step_data {s t : State} (h : step s = .next t) :
    SameData s t ∨
    ∃ op : Opcode, s.memRead s.pc = op.byte ∧ (s.fetchedInstr op).WellFormed ∧
      SameData (commit (s.fetchedInstr op) (s.fetched op)) t := by
  obtain ⟨v1, v2, c, -, rfl⟩ | ⟨op, hop, hwf, hfin⟩ := step_stops_or_finishes h
  · exact .inl ⟨rfl, rfl, rfl⟩
  · exact .inr ⟨op, hop, hwf, (finish_frame hfin).1⟩

/-- The first operand of the fetched instruction, where it has one, is the byte behind the opcode. -/
theorem fetchedInstr_eq_build (s : State) (op : Opcode) :
    s.fetchedInstr op = op.build (s.memRead (s.pc + 1#8)) (s.fetched op).b2 := by
  cases op <;> rfl

theorem opcode_eq_of_byte_eq {op op' : Opcode} (h : op.byte = op'.byte) : op = op' := by
  have hop := Opcode.ofByte_eq_some.2 h
  rw [Opcode.ofByte_byte] at hop
  injection hop

/-! ## Memory -/

/-- Every commit but PUSH's leaves memory alone. -/
theorem commit_mem {i : Instr} (h : i.opcode ≠ .push) (s : State) : (commit i s).mem = s.mem := by
  cases i with
  | push r => exact absurd rfl h
  | _ => rfl

/-- PUSH's commit writes one byte, at the decremented SP (R140). -/
theorem commit_push_memRead {r a : Byte} {s : State} (h : a ≠ s.reg 7 - 1#8) :
    (commit (.push r) s).memRead a = s.memRead a := by
  simp [commit, State.pushed_eq, h]

/-- Settles O10: a commit other than PUSH's keeps memory, and PUSH's writes at R7 - 1 alone. -/
theorem onlyPushWritesMemory : Obligations.OnlyPushWritesMemory := by
  intro s t h
  obtain hsame | ⟨op, hop, -, hdata⟩ := step_data h
  · exact ⟨fun _ a => hsame.memRead a, fun _ a _ => hsame.memRead a⟩
  · have hfetched := fetched_sameData s op
    by_cases hpush : op = .push
    · subst hpush
      refine ⟨fun hne => absurd hop hne, fun _ a ha => ?_⟩
      rw [← hfetched.reg 7] at ha
      exact (hdata.memRead a).trans ((commit_push_memRead ha).trans (hfetched.memRead a))
    · have hcommit : (commit (s.fetchedInstr op) (s.fetched op)).mem = (s.fetched op).mem :=
        commit_mem (by rwa [State.fetchedInstr, Opcode.build_opcode]) _
      have hmem : t.mem = s.mem := hdata.1.trans (hcommit.trans hfetched.1)
      refine ⟨fun _ a => congrArg (Memory.read a.toNat) hmem, fun he => absurd ?_ hpush⟩
      exact opcode_eq_of_byte_eq (hop.symm.trans he)

/-! ## Registers -/

theorem namesRegister_eq_regByte {b : Byte} (h : namesRegister b = true) : b = regByte (regOf b) := by
  obtain ⟨r, rfl⟩ := namesRegister_iff.1 h
  rw [regOf_regByte]

/-- Registers a commit changes: the first operand of LDI, MUL and POP, and R7 in PUSH and POP (R27). -/
theorem commit_reg_changed {op : Opcode} {b1 b2 : Byte} {s : State} {q : Reg}
    (hwf : (op.build b1 b2).WellFormed) (h : (commit (op.build b1 b2) s).reg q ≠ s.reg q) :
    (op ∈ [.ldi, .mul, .pop] ∧ b1 = regByte q) ∨ (op ∈ [.push, .pop] ∧ q = 7) := by
  have named : namesRegister b1 = true → q = regOf b1 → b1 = regByte q :=
    fun hb hq => hq ▸ namesRegister_eq_regByte hb
  cases op with
  | hlt => exact absurd rfl h
  | prn => exact absurd rfl h
  | ldi =>
    have hq : q = regOf b1 := by by_contra hq; simp [Opcode.build, commit, hq] at h
    exact .inl ⟨by simp, named (wellFormed_ldi.symm.trans hwf) hq⟩
  | mul =>
    have hq : q = regOf b1 := by by_contra hq; simp [Opcode.build, commit, hq] at h
    have hb : namesRegister b1 = true := (Bool.and_eq_true_iff.1 (wellFormed_mul.symm.trans hwf)).1
    exact .inl ⟨by simp, named hb hq⟩
  | push =>
    have hq : q = 7 := by by_contra hq; simp [Opcode.build, commit, State.pushed_eq, hq] at h
    exact .inr ⟨by simp, hq⟩
  | pop =>
    by_cases hq : q = 7
    · exact .inr ⟨by simp, hq⟩
    · have hr : q = regOf b1 := by
        by_contra hr; simp [Opcode.build, commit, State.popped_eq, hq, hr] at h
      exact .inl ⟨by simp, named (wellFormed_pop.symm.trans hwf) hr⟩

/-- Settles O11: only a commit changes a register, and only where the writes column of R27 names it. -/
theorem registersChangeOnlyWhereNamed : Obligations.RegistersChangeOnlyWhereNamed := by
  intro s t q h hne
  obtain hsame | ⟨op, hop, hwf, hdata⟩ := step_data h
  · exact absurd (hsame.reg q) hne
  · rw [hdata.reg, ← (fetched_sameData s op).reg q, fetchedInstr_eq_build] at hne
    rw [fetchedInstr_eq_build] at hwf
    obtain ⟨hmem, hb1⟩ | ⟨hmem, hq⟩ := commit_reg_changed hwf hne
    · exact .inl ⟨hop ▸ List.mem_map_of_mem (f := Opcode.byte) hmem, hb1⟩
    · exact .inr ⟨hop ▸ List.mem_map_of_mem (f := Opcode.byte) hmem, hq⟩

/-! ## What no step reads -/

/-- An update of components that no meaning reads: it leaves memory, registers and `pc` alone, and does
not interfere with a commit, an advance or a fault entry. -/
structure Unread (f : State → State) : Prop where
  mem : ∀ s, (f s).mem = s.mem
  x : ∀ s, (f s).x = s.x
  pc : ∀ s, (f s).pc = s.pc
  commit : ∀ i s, commit i (f s) = f (commit i s)
  setPc : ∀ s p, (f s).setPc p = f (s.setPc p)
  raise : ∀ s c, (f s).raise c = f (s.raise c)

section
variable {f : State → State}

theorem Unread.faultBefore (hf : Unread f) (i : Instr) (s : State) :
    faultBefore i (f s) = faultBefore i s := by
  have hreg : (f s).reg 7 = s.reg 7 := by rw [State.reg, hf.x, State.reg]
  have hpop (r : Reg) : popSp (f s) r = popSp s r := by
    rw [popSp, popSp, State.memRead, hf.mem, State.sp_eq, hreg]; rfl
  cases i <;> simp only [Machine.faultBefore, hreg, hpop]

theorem Unread.retire (hf : Unread f) {len : Nat} {s t : State} (h : retire len s = .next t) :
    retire len (f s) = .next (f t) := by
  obtain ⟨hl, rfl⟩ | ⟨hl, rfl⟩ := retire_next h
  · rw [retire_inside (by rwa [hf.pc]), hf.pc, hf.setPc]
  · rw [retire_overflow (by rwa [hf.pc]), hf.raise]

/-- A meaning carries an unread update through. -/
theorem Unread.exec (hf : Unread f) {i : Instr} {s t : State} (h : exec i s = .next t) :
    exec i (f s) = .next (f t) := by
  rw [exec_eq] at h ⊢
  rw [hf.faultBefore]
  cases hc : Machine.faultBefore i s with
  | some c => rw [hc] at h; cases h; exact congrArg _ (hf.raise s c)
  | none =>
    rw [hc] at h
    dsimp only at h ⊢
    by_cases hi : i = .hlt
    · subst hi; cases h; exact congrArg _ (hf.commit .hlt s)
    · rw [finish_eq hi] at h ⊢
      rw [hf.commit]
      exact hf.retire h

end

/-! ### Output -/

/-- The output with values in front of it. -/
def State.prependOut (o : List Byte) (s : State) : State := { s with out := o ++ s.out }

theorem unread_prependOut (o : List Byte) : Unread (State.prependOut o) where
  mem _ := rfl
  x _ := rfl
  pc _ := rfl
  commit i s := by
    cases i with
    | prn r => simp [Machine.commit, State.prependOut, State.emit, State.reg]
    | _ => rfl
  setPc _ _ := rfl
  raise _ _ := rfl

theorem fetched_prependOut (o : List Byte) (s : State) (op : Opcode) :
    (s.prependOut o).fetched op = (s.fetched op).prependOut o := by
  cases op <;> rfl

theorem fetchedInstr_prependOut (o : List Byte) (s : State) (op : Opcode) :
    (s.prependOut o).fetchedInstr op = s.fetchedInstr op := by
  cases op <;> rfl

/-- What `out` held before a step stays in front of it and changes nothing else. -/
theorem step_prependOut (o : List Byte) {s t : State} (h : step s = .next t) :
    step (s.prependOut o) = .next (t.prependOut o) := by
  obtain ⟨hr, hcase⟩ := step_next h
  rw [step_running (s := s.prependOut o) hr]
  obtain ⟨hop, rfl⟩ | ⟨op, hop, hp, rfl⟩ | ⟨op, hop, hp, hexec⟩ := hcase
  · exact cycle_illegal (s := s.prependOut o) hop
  · exact cycle_above (s := s.prependOut o) hop hp
  · rw [cycle_exec (s := s.prependOut o) hop hp, fetchedInstr_prependOut, fetched_prependOut]
    exact (unread_prependOut o).exec hexec

/-- A commit appends to the output at most one value, and only PRN's does (R112). -/
theorem commit_out (i : Instr) (s : State) :
    (commit i s).out = s.out ∨ ∃ v, (commit i s).out = s.out ++ [v] ∧ i.opcode = .prn := by
  cases i with
  | prn r => exact .inr ⟨_, rfl, rfl⟩
  | _ => exact .inl rfl

theorem step_out {s t : State} (h : step s = .next t) :
    t.out = s.out ∨ ∃ v, t.out = s.out ++ [v] ∧ s.memRead s.pc = 0x47#8 := by
  obtain ⟨-, -, hout⟩ | ⟨op, hop, -, -, -, hout⟩ := step_data h
  · exact .inl hout
  · have hfetched : (s.fetched op).out = s.out := (fetched_sameData s op).2.2
    obtain hc | ⟨v, hc, hprn⟩ := commit_out (s.fetchedInstr op) (s.fetched op)
    · exact .inl (hout.trans (hc.trans hfetched))
    · rw [State.fetchedInstr, Opcode.build_opcode] at hprn
      subst hprn
      exact .inr ⟨v, hout.trans (hc.trans (by rw [hfetched])), hop⟩

/-- Settles O12: what a step emits is what it emits from an empty output, and any earlier output stays in
front of it. -/
theorem outputIsAppendedAndNeverRead : Obligations.OutputIsAppendedAndNeverRead := by
  intro s t h
  have hr := running_of_step h
  obtain ⟨t0, ht0⟩ := step_answers (s := { s with out := [] }) hr
  have hstep (o : List Byte) : step { s with out := o } = .next (t0.prependOut o) := by
    simpa [State.prependOut] using step_prependOut o ht0
  obtain rfl : t = t0.prependOut s.out := by
    injection h.symm.trans (hstep s.out)
  refine ⟨t0.out, rfl, ?_, hstep⟩
  obtain hout | ⟨v, hout, hprn⟩ := step_out ht0
  · exact .inl hout
  · exact .inr ⟨v, hout, hprn⟩

/-! ### Latches -/

/-- The operand latches replaced. -/
def State.withOperands (v1 v2 : Byte) (s : State) : State := { s with b1 := v1, b2 := v2 }

theorem unread_withOperands (v1 v2 : Byte) : Unread (State.withOperands v1 v2) where
  mem _ := rfl
  x _ := rfl
  pc _ := rfl
  commit i _ := by cases i <;> rfl
  setPc _ _ := rfl
  raise _ _ := rfl

/-- A fetch loads IR, and loads every operand latch that the fetched instruction has. -/
theorem fetched_latched (s : State) (op : Opcode) (v0 v1 v2 : Byte) :
    (∃ w1 w2, (s.latched [v0, v1, v2]).fetched op = (s.fetched op).withOperands w1 w2) ∧
      (s.latched [v0, v1, v2]).fetchedInstr op = s.fetchedInstr op := by
  cases op <;> exact ⟨⟨_, _, rfl⟩, rfl⟩

/-- A step from other latches ends in the same state but for B1 and B2. -/
theorem step_latched {s t : State} (v0 v1 v2 : Byte) (h : step s = .next t) :
    ∃ w1 w2, step (s.latched [v0, v1, v2]) = .next (t.withOperands w1 w2) := by
  obtain ⟨hr, hcase⟩ := step_next h
  rw [step_running (s := s.latched [v0, v1, v2]) hr]
  obtain ⟨hop, rfl⟩ | ⟨op, hop, hp, rfl⟩ | ⟨op, hop, hp, hexec⟩ := hcase
  · exact ⟨_, _, cycle_illegal (s := s.latched [v0, v1, v2]) hop⟩
  · exact ⟨_, _, cycle_above (s := s.latched [v0, v1, v2]) hop hp⟩
  · obtain ⟨⟨w1, w2, hfetched⟩, hinstr⟩ := fetched_latched s op v0 v1 v2
    refine ⟨w1, w2, ?_⟩
    rw [cycle_exec (s := s.latched [v0, v1, v2]) hop hp, hinstr, hfetched]
    exact (unread_withOperands w1 w2).exec hexec

/-- IR holds the opcode byte after every step (R36). -/
theorem step_ir {s t : State} (h : step s = .next t) : t.ir = s.memRead s.pc := by
  obtain ⟨v1, v2, c, -, rfl⟩ | ⟨op, -, -, hfin⟩ := step_stops_or_finishes h
  · rfl
  · obtain ⟨v1, v2, hfetched⟩ := fetched_eq_latched s op
    rw [(finish_frame hfin).2, hfetched]; rfl

/-- Settles O13: IR is loaded from `pc`, and a step from other latches ends in the same state but for B1
and B2. -/
theorem latchesAreUnobservable : Obligations.LatchesAreUnobservable := by
  intro s t h
  refine ⟨step_ir h, fun v0 v1 v2 => ?_⟩
  obtain ⟨w1, w2, hstep⟩ := step_latched v0 v1 v2 h
  exact ⟨t.withOperands w1 w2, hstep, rfl⟩

/-! ## The invariant -/

/-- Outside FAULTED the invariant asks for canonical memory and an empty record. -/
theorem inv_of_no_record {s : State} (hs : s.status ≠ .faulted) (hmem : Memory.wf s.mem)
    (hcause : s.faultCause = 0#8) (hpc : s.faultPc = 0#8) : s.Inv :=
  ⟨hmem, fun h => absurd h hs, fun _ => ⟨hcause, hpc⟩⟩

/-- Every cause but the reserved ALU_BAD_OP has a code from 1 to 6 (R160). -/
theorem code_range {c : FaultCause} (hc : c ≠ .aluBadOp) : 1 ≤ c.code.toNat ∧ c.code.toNat ≤ 6 := by
  cases c <;> revert hc <;> decide

/-- Fault entry from canonical memory meets the invariant, for every cause but the reserved one (R171). -/
theorem raise_inv {s : State} {c : FaultCause} (hmem : Memory.wf s.mem) (hc : c ≠ .aluBadOp) :
    (s.raise c).Inv := by
  obtain ⟨hlow, hhigh⟩ := code_range hc
  exact ⟨hmem, fun _ => ⟨hlow, hhigh, rfl⟩, fun h => absurd rfl h⟩

/-- Commit and retirement keep the invariant of a RUNNING machine: HLT and an advance leave the empty
record, and PC_OVERFLOW makes one. -/
theorem finish_keeps_inv {i : Instr} {s t : State} (hr : s.status = .running) (hinv : s.Inv)
    (h : finish i s = .next t) : t.Inv := by
  obtain ⟨hmem, -, hrecord⟩ := hinv
  obtain ⟨hcause, hpc⟩ := hrecord (by simp [hr])
  by_cases hi : i = .hlt
  · subst hi; cases h; exact inv_of_no_record (by simp [commit]) hmem hcause hpc
  · have hmem' := commit_keeps_wf i hmem
    obtain ⟨-, hcause', hpc', -⟩ := commit_frame i s
    rw [finish_eq hi] at h
    obtain ⟨-, rfl⟩ | ⟨-, rfl⟩ := retire_next h
    · exact inv_of_no_record (by simp [commit_status hi, hr]) hmem' (hcause'.trans hcause) (hpc'.trans hpc)
    · exact raise_inv hmem' (by decide)

theorem fetched_keeps_inv {s : State} (op : Opcode) (h : s.Inv) : (s.fetched op).Inv := by
  obtain ⟨v1, v2, hfetched⟩ := fetched_eq_latched s op
  rw [hfetched]; exact h

/-- Settles O48: a fault entry makes a record of its own, and a commit with its retirement keeps the
invariant. -/
theorem stepKeepsTheInvariant : Obligations.StepKeepsTheInvariant := by
  intro s t hinv h
  obtain ⟨v1, v2, c, hc, rfl⟩ | ⟨op, -, -, hfin⟩ := step_stops_or_finishes h
  · exact raise_inv hinv.1 hc
  · obtain ⟨-, -, -, hstatus, -⟩ := fetched_frame s op
    exact finish_keeps_inv (hstatus.trans (running_of_step h)) (fetched_keeps_inv op hinv) hfin

/-- Settles O47: memory is empty, and there is no record. -/
theorem invariantHoldsAtReset : Obligations.InvariantHoldsAtReset :=
  inv_of_no_record (by simp) Memory.reset_wf State.reset_faultCause State.reset_faultPc

/-- Settles O49: reset establishes the invariant, and in IDLE a load keeps memory canonical and a start
leaves the record empty; otherwise nothing changes. -/
theorem hostActionKeepsTheInvariant : Obligations.HostActionKeepsTheInvariant := by
  intro s a hinv
  obtain ⟨-, ha⟩ | ⟨-, ha⟩ | ⟨hidle, ⟨k, b, -, ha⟩ | ⟨-, ha⟩⟩ := hostAct_cases a s <;> rw [ha]
  · exact invariantHoldsAtReset
  · exact hinv
  · obtain ⟨hmem, hrecord⟩ := hinv
    exact ⟨State.memWrite_keeps_wf k b hmem, hrecord⟩
  · obtain ⟨hmem, -, hrecord⟩ := hinv
    obtain ⟨hcause, hpc⟩ := hrecord (by simp [hidle])
    exact inv_of_no_record (by simp) hmem hcause hpc

end Sys2Proof.Machine
end

section
/-! PROOFS. The statements on memory (spec/20_memory.md): what a write does, and that a fetch sees the byte a
PUSH stored. -/

namespace Sys2Proof.Machine

/-- Settles O37: the read-after-write law, at the written address and at every other one. -/
theorem memWriteSetsOneCell : Obligations.MemWriteSetsOneCell := by
  intro s a v
  refine ⟨?_, fun b hb => ?_, rfl⟩
  · rw [State.memWrite_memRead, if_pos rfl]
  · rw [State.memWrite_memRead, if_neg hb]

/-- PUSH's commit stores, at the decremented SP, the source as it stands after the decrement (R140). -/
theorem commit_push_memRead_pushAddress (q : Reg) (s : State) :
    (commit (.push (regByte q)) s).memRead (s.reg 7 - 1#8) = if q = 7 then s.reg 7 - 1#8 else s.reg q := by
  rw [commit, regOf_regByte, State.pushed_eq, State.memWrite_memRead, if_pos rfl]

/-- A step that does not fault commits the fetched instruction (R98, R99). -/
theorem step_data_of_not_faulted {s t : State} {op : Opcode} (hop : s.memRead s.pc = op.byte)
    (h : step s = .next t) (hs : t.status ≠ .faulted) :
    SameData (commit (s.fetchedInstr op) (s.fetched op)) t := by
  obtain ⟨v1, v2, c, -, rfl⟩ | ⟨op', hop', -, hfin⟩ := step_stops_or_finishes h
  · exact absurd rfl hs
  · obtain rfl := opcode_eq_of_byte_eq (hop.symm.trans hop')
    exact (finish_frame hfin).1

/-- A PUSH of register `q` that retires leaves the pushed byte at R7 - 1. -/
theorem step_push_memRead {s t : State} {q : Reg} (hop : s.memRead s.pc = 0x45#8)
    (hb1 : s.memRead (s.pc + 1#8) = regByte q) (h : step s = .next t) (hs : t.status ≠ .faulted) :
    t.memRead (s.reg 7 - 1#8) = if q = 7 then s.reg 7 - 1#8 else s.reg q := by
  have hdata := step_data_of_not_faulted (op := .push) hop h hs
  have hreg := (fetched_sameData s .push).reg
  rw [fetchedInstr_eq_build, hb1] at hdata
  rw [hdata.memRead, ← hreg 7, ← hreg q]
  exact commit_push_memRead_pushAddress q _

/-- Settles O14: the step after the PUSH loads IR from `pc`, which is where the pushed byte lies. -/
theorem nextFetchSeesThePushedByte : Obligations.NextFetchSeesThePushedByte := by
  intro s t u q hop hb1 hpush hrun hpc hnext
  rw [step_ir hnext, hpc]
  exact step_push_memRead hop hb1 hpush (by simp [hrun])

/-- A RUNNING machine at PUSH R7, with SP three above it: the decremented SP is stored at the next
instruction's address, and it is PUSH's own opcode. -/
def pushSpOntoNextFetch : State :=
  { (State.reset.setPc 0x43#8).setSp 0x46#8 with mem := [(0x43, 0x45#8), (0x44, 7#8)], status := .running }

/-- The clause of O14 for R7 has an instance, in which the pushed SP is fetched. -/
theorem pushSpOntoNextFetch_fetches_sp :
    ∃ t u, step pushSpOntoNextFetch = .next t ∧ step t = .next u ∧ u.ir = 0x45#8 :=
  ⟨_, _, rfl, rfl, nextFetchSeesThePushedByte pushSpOntoNextFetch _ _ 7 rfl rfl rfl rfl rfl rfl⟩

end Sys2Proof.Machine
end

section
/-! PROOFS. The statements on the encoding (spec/30_encoding.md): the opcode map, the decoder against the
encoder and against the opcode table, the illegal opcodes, and the two texts around the CORE. -/

namespace Sys2Proof

/-! ## The decoder, said once -/

/-- A byte has no opcode exactly where it is the byte of none (R73). -/
theorem Opcode.ofByte_eq_none {b : Byte} : Opcode.ofByte b = none ↔ ∀ op : Opcode, b ≠ op.byte := by
  simp only [Option.eq_none_iff_forall_ne_some, ne_eq, Opcode.ofByte_eq_some]

/-- Behind an opcode byte the decoder reads that opcode's operands (R67). -/
theorem decode_byte (op : Opcode) (operands : List Byte) :
    decode (op.byte :: operands) = op.decodeOperands operands := by
  rw [decode.eq_2, Opcode.ofByte_byte]

/-- A first byte without an opcode is refused by name (R73). -/
theorem decode_illegal {b : Byte} (h : Opcode.ofByte b = none) (rest : List Byte) :
    decode (b :: rest) = .error .illegalOpcode := by
  rw [decode.eq_2, h]

theorem Opcode.operandCount_le_two (op : Opcode) : op.operandCount ≤ 2 := by
  cases op <;> decide

/-- The operands are read from exactly as many bytes as the opcode has operands (R66, R72). -/
theorem Opcode.decodeOperands_take (op : Opcode) (b1 b2 : Byte) (rest : List Byte) :
    op.decodeOperands ([b1, b2].take op.operandCount ++ rest) = .ok (op.build b1 b2, rest) := by
  cases op <;> rfl

/-- Fewer bytes than the opcode has operands are refused (R72). -/
theorem Opcode.decodeOperands_short {op : Opcode} {operands : List Byte}
    (h : operands.length < op.operandCount) : op.decodeOperands operands = .error .truncated := by
  cases op with
  | hlt => exact absurd h (Nat.not_lt_zero _)
  | prn | push | pop =>
    obtain rfl := List.length_eq_zero_iff.1 (Nat.lt_one_iff.1 h)
    rfl
  | ldi | mul =>
    obtain _ | ⟨b1, _ | ⟨b2, rest⟩⟩ := operands
    · rfl
    · rfl
    · exact absurd h (Nat.not_lt.2 (Nat.le_add_left 2 rest.length))

/-! ## The decoder against the encoder -/

/-- An encoding is the opcode byte and as many operand bytes as its opcode has (R65). -/
theorem encode_build (op : Opcode) (b1 b2 : Byte) :
    encode (op.build b1 b2) = op.byte :: [b1, b2].take op.operandCount := by
  cases op <;> rfl

/-- Every instruction is what its opcode and operand bytes make (R66). -/
theorem Instr.exists_build (i : Instr) : ∃ (op : Opcode) (b1 b2 : Byte), i = op.build b1 b2 := by
  cases i with
  | hlt => exact ⟨.hlt, 0#8, 0#8, rfl⟩
  | ldi r imm => exact ⟨.ldi, r, imm, rfl⟩
  | prn r => exact ⟨.prn, r, 0#8, rfl⟩
  | mul a b => exact ⟨.mul, a, b, rfl⟩
  | push r => exact ⟨.push, r, 0#8, rfl⟩
  | pop r => exact ⟨.pop, r, 0#8, rfl⟩

theorem decode_encode (i : Instr) (rest : List Byte) : decode (encode i ++ rest) = .ok (i, rest) := by
  obtain ⟨op, b1, b2, rfl⟩ := i.exists_build
  rw [encode_build, List.cons_append, decode_byte, Opcode.decodeOperands_take]

/-- At most two bytes at the front of a longer list are the operand bytes of an opcode. -/
theorem exists_eq_take_append_drop {n : Nat} {operands : List Byte} (hn : n ≤ 2)
    (h : n ≤ operands.length) : ∃ b1 b2, operands = [b1, b2].take n ++ operands.drop n := by
  match n, operands with
  | 0, operands => exact ⟨0#8, 0#8, rfl⟩
  | 1, b1 :: rest => exact ⟨b1, 0#8, rfl⟩
  | 2, b1 :: b2 :: rest => exact ⟨b1, b2, rfl⟩

/-- An opcode byte with enough bytes behind it is an encoding and the bytes left over (R65, R72). -/
theorem exists_encode_append {op : Opcode} {operands : List Byte}
    (h : op.operandCount ≤ operands.length) :
    ∃ i, op.byte :: operands = encode i ++ operands.drop op.operandCount := by
  obtain ⟨b1, b2, hoperands⟩ := exists_eq_take_append_drop op.operandCount_le_two h
  refine ⟨op.build b1 b2, ?_⟩
  rw [encode_build, List.cons_append, ← hoperands]

/-- Only an encoding decodes: no instruction has a second one (R74). -/
theorem eq_encode_append_of_decode {bytes rest : List Byte} {i : Instr} (h : decode bytes = .ok (i, rest)) :
    bytes = encode i ++ rest := by
  obtain _ | ⟨b0, operands⟩ := bytes
  · cases h
  cases hop : Opcode.ofByte b0 with
  | none => rw [decode_illegal hop] at h; cases h
  | some op =>
    obtain rfl := Opcode.ofByte_eq_some.1 hop
    obtain hlen | hlen := Nat.lt_or_ge operands.length op.operandCount
    · rw [decode_byte, Opcode.decodeOperands_short hlen] at h; cases h
    · obtain ⟨j, hj⟩ := exists_encode_append hlen
      rw [hj, decode_encode] at h
      cases h
      exact hj

/-- Settles O2: an encoding decodes to its instruction, and nothing else decodes. -/
theorem decodeAndEncodeAgree : Obligations.DecodeAndEncodeAgree := by
  intro bytes rest i
  refine ⟨eq_encode_append_of_decode, ?_⟩
  rintro rfl
  exact decode_encode i rest

/-! ## The decoder against the opcode table -/

/-- The opcode table as `tableOperandCount` writes it out agrees with the opcode map (R71). -/
theorem tableOperandCount_eq (b : Byte) :
    Machine.tableOperandCount b = (Opcode.ofByte b).map Opcode.operandCount := by
  cases h : Opcode.ofByte b with
  | none =>
    have hb := Opcode.ofByte_eq_none.1 h
    have hone := not_or.2 ⟨hb .prn, not_or.2 ⟨hb .push, hb .pop⟩⟩
    have htwo := not_or.2 ⟨hb .ldi, hb .mul⟩
    exact (if_neg (hb .hlt)).trans ((if_neg hone).trans (if_neg htwo))
  | some op =>
    obtain rfl := Opcode.ofByte_eq_some.1 h
    cases op <;> rfl

theorem tableOperandCount_eq_some {b : Byte} {n : Nat} :
    Machine.tableOperandCount b = some n ↔ ∃ op : Opcode, b = op.byte ∧ op.operandCount = n := by
  simp only [tableOperandCount_eq, Option.map_eq_some_iff, Opcode.ofByte_eq_some]

theorem tableOperandCount_eq_none {b : Byte} :
    Machine.tableOperandCount b = none ↔ Opcode.ofByte b = none := by
  rw [tableOperandCount_eq, Option.map_eq_none_iff]

/-- Settles O3: enough bytes behind an opcode are an encoding and what is left over, fewer are refused. -/
theorem lengthIsKnownFromTheOpcode : Obligations.LengthIsKnownFromTheOpcode := by
  intro b0 n operands htable
  obtain ⟨op, rfl, rfl⟩ := tableOperandCount_eq_some.1 htable
  split_ifs with hlen
  · obtain ⟨i, hi⟩ := exists_encode_append hlen
    exact ⟨i, hi ▸ decode_encode i _⟩
  · rw [decode_byte, Opcode.decodeOperands_short (Nat.lt_of_not_le hlen)]

/-- Settles O1: each row of the map is its opcode's operands, and a byte outside the map has no opcode. -/
theorem opcodeMapDecodes : Obligations.OpcodeMapDecodes := by
  intro p q rest
  refine ⟨decode_byte .hlt rest, decode_byte .ldi (p :: q :: rest), decode_byte .prn (p :: rest),
    decode_byte .mul (p :: q :: rest), decode_byte .push (p :: rest), decode_byte .pop (p :: rest), ?_⟩
  intro b0 hb0
  refine decode_illegal (Opcode.ofByte_eq_none.2 fun op hop => hb0 ?_) rest
  rw [hop]
  cases op <;> decide

end Sys2Proof

namespace Sys2Proof.Machine

/-! ## Illegal opcodes -/

/-- The bytes with no opcode are those between the six opcodes (R73): each branch of the table is a fact
about numbers. -/
theorem tableOperandCount_eq_none_iff_range (b : Byte) : tableOperandCount b = none ↔
    b.toNat = 0 ∨ (0x02 ≤ b.toNat ∧ b.toNat ≤ 0x44) ∨ (0x48 ≤ b.toNat ∧ b.toNat ≤ 0x81) ∨
    (0x83 ≤ b.toNat ∧ b.toNat ≤ 0xA1) ∨ 0xA3 ≤ b.toNat := by
  simp only [tableOperandCount, ← BitVec.toNat_inj, BitVec.toNat_ofNat]
  split_ifs with hnone hone htwo
  · exact iff_of_false nofun (by omega)
  · exact iff_of_false nofun (by omega)
  · exact iff_of_false nofun (by omega)
  · exact iff_of_true rfl (by omega)

set_option maxRecDepth 4000 in
/-- 256 bytes less six opcodes (R73). -/
theorem illegalOpcode_count :
    ((List.range 256).filter fun n => tableOperandCount (BitVec.ofNat 8 n) = none).length = 250 := by
  decide

/-- Once its opcode is decoded, an instruction raises other causes only. -/
theorem exec_faultCause_ne_illegalOpcode {i : Instr} {s t : State} (hs : s.status = .running)
    (h : exec i s = .next t) (ht : t.status = .faulted) : t.faultCause ≠ 1#8 := by
  obtain ⟨-, rfl⟩ | ⟨c, hc, rfl⟩ | ⟨hi, -, -, rfl⟩ | ⟨-, -, -, rfl⟩ := exec_next h
  · cases ht
  · obtain ⟨rfl, -⟩ | ⟨rfl, -⟩ | ⟨rfl, -⟩ := faultBefore_some hc <;> simp [FaultCause.code]
  · rw [State.setPc_status, commit_status hi, hs] at ht
    cases ht
  · simp [FaultCause.code]

/-- Settles O27: fault entry at decode leaves all but IR and the record, and no later stage raises cause 1. -/
theorem illegalOpcodeFaults : Obligations.IllegalOpcodeFaults := by
  refine ⟨tableOperandCount_eq_none_iff_range, illegalOpcode_count, ?_, ?_⟩
  · intro s hs hb
    have hstep := (step_running hs).trans (cycle_illegal (tableOperandCount_eq_none.1 hb))
    exact ⟨_, hstep, ⟨⟨rfl, rfl, rfl, rfl⟩, fun _ => rfl, fun _ _ => rfl, rfl⟩, rfl, rfl⟩
  · intro s t h hfaulted hcause
    obtain ⟨hs, ⟨hb, -⟩ | ⟨op, -, -, rfl⟩ | ⟨op, -, -, hexec⟩⟩ := step_next h
    · exact tableOperandCount_eq_none.2 hb
    · cases hcause
    · obtain ⟨-, -, -, hstatus, -⟩ := fetched_frame s op
      exact absurd hcause (exec_faultCause_ne_illegalOpcode (hstatus.trans hs) hexec hfaulted)

/-! ## The program image text -/

/-- A line gives a byte exactly where its digits are what the comment's removal and the trimming leave. -/
theorem imageLine_eq_some {line : List Char} {b : Byte} :
    imageLine line = some b ↔ stripComment line = binaryDigits b := by
  rw [imageLine.eq_def]
  dsimp only
  split_ifs with hlen
  · exact binaryByte_eq_some hlen
  · refine iff_of_false nofun fun h => hlen ?_
    rw [h, binaryDigits_length]

/-- The forms of a line that is left with the digits of a byte (R78). -/
theorem stripComment_eq_binaryDigits {line : List Char} {b : Byte} :
    stripComment line = binaryDigits b ↔
    ∃ before behind rest : List Char, IsBlank before ∧ IsBlank behind ∧
      (rest = [] ∨ ∃ comment, rest = '#' :: comment) ∧
      line = before ++ binaryDigits b ++ behind ++ rest := by
  constructor
  · intro h
    obtain ⟨rest, hline, hrest⟩ := beforeComment_append line
    obtain ⟨before, behind, hbefore, hbehind, htext⟩ := trimLine_append (line.takeWhile (· ≠ '#'))
    refine ⟨before, behind, rest, hbefore, hbehind, hrest, ?_⟩
    rw [← h, stripComment, ← htext]
    exact hline
  · rintro ⟨before, behind, rest, hbefore, hbehind, hrest, rfl⟩
    have hhash : '#' ∉ before ++ binaryDigits b ++ behind := by
      have hblank : ∀ text, IsBlank text → '#' ∉ text := fun text ht hmem => by cases ht _ hmem
      simp only [List.mem_append, not_or]
      exact ⟨⟨hblank _ hbefore, fun hmem => (binaryDigits_mem hmem).2 rfl⟩, hblank _ hbehind⟩
    rw [stripComment, beforeComment_of_append hhash hrest,
      trimLine_of_append hbefore hbehind fun c hc => (binaryDigits_mem hc).1]

/-- Settles O5: the two lemmas above for one line, and a text of joined lines splits into them. -/
theorem imageLineGivesItsByte : Obligations.ImageLineGivesItsByte := by
  have hform := fun (line : List Char) (b : Byte) =>
    (imageLine_eq_some (line := line) (b := b)).trans stripComment_eq_binaryDigits
  refine ⟨hform, fun line hno => ?_, fun lines hne hlines => ?_⟩
  · exact Option.eq_none_iff_forall_ne_some.2 fun b hb => hno ⟨b, (hform line b).1 hb⟩
  · rw [imageOfText, List.splitOn_intercalate _ hlines hne]

/-! ## The assembly spelling -/

theorem digitValue_digitChar : ∀ d < 10, digitValue 10 d.digitChar = some d := by
  decide

theorem digitsValue_digitChar {d : Nat} (h : d < 10) (acc : Nat) :
    digitsValue 10 [d.digitChar] acc = some (10 * acc + d) := by
  rw [digitsValue, digitValue_digitChar d h]
  rfl

theorem digitsValue_append (base : Nat) (ds es : List Char) (acc : Nat) :
    digitsValue base (ds ++ es) acc = (digitsValue base ds acc).bind (digitsValue base es) := by
  induction ds generalizing acc with
  | nil => rfl
  | cons c cs ih => simp only [List.cons_append, digitsValue, ih, Option.bind_assoc]

/-- Reading the decimal digits of a number gives it back, by induction on its digits. -/
theorem digitsValue_toDigits (n : Nat) : digitsValue 10 (Nat.toDigits 10 n) 0 = some n := by
  induction n using Nat.strongRecOn with
  | ind n ih =>
    obtain hn | hn := Nat.lt_or_ge n 10
    · rw [Nat.toDigits_of_lt_base hn, digitsValue_digitChar hn, Nat.mul_zero, Nat.zero_add]
    · have hlast : n % 10 < 10 := Nat.mod_lt n (by decide)
      rw [Nat.toDigits_of_base_le (by decide) hn, digitsValue_append, ih _ (by omega), Option.bind_some,
        digitsValue_digitChar hlast, Nat.div_add_mod]

theorem number_toDigits {b : Byte} {top : Nat} (h : b.toNat ≤ top) :
    number 10 top (Nat.toDigits 10 b.toNat) = some b := by
  rw [number, if_neg Nat.toDigits_ne_nil, digitsValue_toDigits, Option.bind_some, if_pos h,
    BitVec.ofNat_toNat, BitVec.setWidth_eq]

theorem not_mem_toDigits {c : Char} (hc : c.isDigit = false) (n : Nat) : c ∉ Nat.toDigits 10 n := by
  intro h
  have hdigit := Nat.isDigit_of_mem_toDigits (by decide) (by decide) h
  rw [hc] at hdigit
  cases hdigit

theorem parseReg_regText {r : Byte} (h : namesRegister r = true) : parseReg (regText r) = some r :=
  number_toDigits (of_decide_eq_true h)

/-- A decimal is never taken for the `0x` form: it holds no `x`. -/
theorem parseImmediate_toDigits (b : Byte) : parseImmediate (Nat.toDigits 10 b.toNat) = some b := by
  have hx := not_mem_toDigits (c := 'x') (by decide) b.toNat
  rw [parseImmediate.eq_2]
  · exact number_toDigits (Nat.le_of_lt_succ b.isLt)
  · intro digits h
    exact hx (by simp [h])

/-- The operands of `assembly i`, each a word. -/
def operandWords : Instr → List (List Char)
  | .hlt => []
  | .ldi r imm => [regText r, Nat.toDigits 10 imm.toNat]
  | .prn r => [regText r]
  | .mul a b => [regText a, regText b]
  | .push r => [regText r]
  | .pop r => [regText r]

theorem assembly_eq_intercalate (i : Instr) :
    assembly i = [' '].intercalate (mnemonic i.opcode :: operandWords i) := by
  cases i <;> simp [assembly, operandWords]

theorem parseMnemonic_mnemonic (op : Opcode) : parseMnemonic (mnemonic op) = some op := by
  cases op <;> decide

/-- A word of the assembly spelling: not empty, and split nowhere. -/
def IsWord (w : List Char) : Prop := w ≠ [] ∧ ' ' ∉ w

theorem isWord_mnemonic (op : Opcode) : IsWord (mnemonic op) := by
  cases op <;> exact ⟨List.cons_ne_nil _ _, by decide⟩

theorem isWord_toDigits (n : Nat) : IsWord (Nat.toDigits 10 n) :=
  ⟨Nat.toDigits_ne_nil, not_mem_toDigits (by decide) n⟩

theorem isWord_regText (r : Byte) : IsWord (regText r) :=
  ⟨List.cons_ne_nil _ _, List.not_mem_cons_of_ne_of_not_mem (by decide) (isWord_toDigits r.toNat).2⟩

theorem isWord_operandWords (i : Instr) : ∀ w ∈ operandWords i, IsWord w := by
  cases i with
  | hlt => exact List.forall_mem_nil _
  | prn r | push r | pop r => exact List.forall_mem_singleton.2 (isWord_regText r)
  | ldi r imm =>
    exact List.forall_mem_cons.2 ⟨isWord_regText r, List.forall_mem_singleton.2 (isWord_toDigits _)⟩
  | mul a b =>
    exact List.forall_mem_cons.2 ⟨isWord_regText a, List.forall_mem_singleton.2 (isWord_regText b)⟩

/-- Splitting a canonical spelling at its spaces gives its words back. -/
theorem words_assembly (i : Instr) :
    ((assembly i).splitOn ' ').filter (· ≠ []) = mnemonic i.opcode :: operandWords i := by
  have hwords : ∀ w ∈ mnemonic i.opcode :: operandWords i, IsWord w :=
    List.forall_mem_cons.2 ⟨isWord_mnemonic _, isWord_operandWords i⟩
  rw [assembly_eq_intercalate,
    List.splitOn_intercalate _ (fun w hw => (hwords w hw).2) (List.cons_ne_nil _ _)]
  exact List.filter_eq_self.2 fun w hw => decide_eq_true (hwords w hw).1

/-- Settles O4: the spelling splits into its words, and each word reads back as the opcode, register or
immediate it was written from. -/
theorem assemblyReadsBack : Obligations.AssemblyReadsBack := by
  intro i hwf
  have hreg := fun r hr => parseReg_regText (List.all_eq_true.1 hwf r hr)
  rw [assemble, words_assembly]
  dsimp only
  rw [parseMnemonic_mnemonic, Option.bind_some]
  cases i with
  | hlt => rfl
  | prn r | push r | pop r =>
    exact Option.map_eq_some_iff.2 ⟨r, hreg r (List.mem_singleton_self r), rfl⟩
  | ldi r imm =>
    exact Option.bind_eq_some_iff.2 ⟨r, hreg r (List.mem_singleton_self r),
      Option.map_eq_some_iff.2 ⟨imm, parseImmediate_toDigits imm, rfl⟩⟩
  | mul a b =>
    exact Option.bind_eq_some_iff.2 ⟨a, hreg a List.mem_cons_self,
      Option.map_eq_some_iff.2 ⟨b, hreg b (List.mem_cons_of_mem a (List.mem_singleton_self b)), rfl⟩⟩

end Sys2Proof.Machine
end

section
/-! PROOFS. The statements on the cycle (spec/40_cycle.md): when there is a step and which instruction it
runs, the advance of `pc`, what a fault leaves, and the length of a run. -/

namespace Sys2Proof.Machine

/-! ## When there is a step -/

/-- Settles O7: a step answers or stops by the status alone, and outside IDLE a host action that is no
reset has no effect. -/
theorem stepExistsExactlyInRunning : Obligations.StepExistsExactlyInRunning := by
  refine ⟨fun s => ⟨fun ⟨t, h⟩ => running_of_step h, step_answers⟩, fun s r h => ?_,
    fun s a _ hreset hne => ?_⟩
  · by_cases hs : s.status = .running
    · obtain ⟨t, ht⟩ := step_answers hs
      cases h.symm.trans ht
    · obtain ⟨r', hr'⟩ := step_not_running hs
      cases h.symm.trans hr'
  · obtain ⟨ha, -⟩ | ⟨-, ha⟩ | ⟨hidle, ⟨k, b, ha, -⟩ | ⟨ha, -⟩⟩ := hostAct_cases a s
    · exact absurd ha hreset
    · exact absurd ha hne
    · exact ⟨hidle, .inr ⟨k, b, ha⟩⟩
    · exact ⟨hidle, .inl ha⟩

/-! ## The instruction at `pc` -/

/-- The opcode byte always exists, and behind it as many of the next two as lie inside the memory. -/
theorem codeBytes_three (s : State) : s.codeBytes 3 =
    s.memRead s.pc :: [s.memRead (s.pc + 1#8), s.memRead (s.pc + 2#8)].take (255 - s.pc.toNat) := by
  have hpc := s.pc.isLt
  have hrange : List.range 3 = [0, 1, 2] := rfl
  obtain h | h | h : s.pc.toNat = 255 ∨ s.pc.toNat = 254 ∨ s.pc.toNat ≤ 253 := by omega
  · simp [State.codeBytes, Config.memSize, hrange, h]
  · simp [State.codeBytes, Config.memSize, hrange, h]
  · have h1 : s.pc.toNat + 1 < 256 := by omega
    have h2 : s.pc.toNat + 2 < 256 := by omega
    have htake : 2 ≤ 255 - s.pc.toNat := by omega
    simp [State.codeBytes, Config.memSize, hrange, hpc, h1, h2, List.take_of_length_le, htake]

/-- The fetched instruction is made of the two bytes behind the opcode, as far as its opcode has operands. -/
theorem fetchedInstr_eq_build_memRead (s : State) (op : Opcode) :
    s.fetchedInstr op = op.build (s.memRead (s.pc + 1#8)) (s.memRead (s.pc + 2#8)) := by
  cases op <;> rfl

theorem fetchedInstr_opcode (s : State) (op : Opcode) : (s.fetchedInstr op).opcode = op :=
  Opcode.build_opcode ..

theorem fetchedInstr_ne_hlt {op : Opcode} (h : op ≠ .hlt) (s : State) : s.fetchedInstr op ≠ .hlt :=
  fun hi => h ((fetchedInstr_opcode s op).symm.trans (congrArg Instr.opcode hi))

/-- Where its operand bytes exist, the bytes at `pc` decode to the fetched instruction (R91, R93). -/
theorem decode_codeBytes {s : State} {op : Opcode} (hop : s.memRead s.pc = op.byte)
    (hp : s.pc.toNat + op.operandCount ≤ 255) :
    ∃ rest, decode (s.codeBytes 3) = .ok (s.fetchedInstr op, rest) := by
  have hcount : min op.operandCount (255 - s.pc.toNat) = op.operandCount := by omega
  rw [codeBytes_three, hop, decode_byte, fetchedInstr_eq_build_memRead,
    ← List.take_append_drop op.operandCount (List.take (255 - s.pc.toNat) _), List.take_take, hcount]
  exact ⟨_, Opcode.decodeOperands_take ..⟩

/-- An operand byte above the memory leaves nothing to decode at `pc`. -/
theorem decode_codeBytes_above {s : State} {op : Opcode} (hop : s.memRead s.pc = op.byte)
    (hp : 255 < s.pc.toNat + op.operandCount) : decode (s.codeBytes 3) = .error .truncated := by
  rw [codeBytes_three, hop, decode_byte]
  refine Opcode.decodeOperands_short ?_
  rw [List.length_take]
  omega

/-- What decodes at `pc` is the instruction that a step fetches. -/
theorem fetched_of_decode {s : State} {i : Instr} {rest : List Byte}
    (h : decode (s.codeBytes 3) = .ok (i, rest)) : ∃ op : Opcode, s.memRead s.pc = op.byte ∧
      s.pc.toNat + op.operandCount ≤ 255 ∧ i = s.fetchedInstr op := by
  cases ho : Opcode.ofByte (s.memRead s.pc) with
  | none => rw [codeBytes_three, decode_illegal ho] at h; cases h
  | some op =>
    have hop := Opcode.ofByte_eq_some.1 ho
    obtain hp | hp := Nat.lt_or_ge 255 (s.pc.toNat + op.operandCount)
    · rw [decode_codeBytes_above hop hp] at h; cases h
    · obtain ⟨rest', hdecode⟩ := decode_codeBytes hop hp
      cases h.symm.trans hdecode
      exact ⟨op, hop, hp, rfl⟩

/-- The fetch loads the latches with the fetched instruction's encoding (R36, R37). -/
theorem fetched_eq_latched_encode {s : State} {op : Opcode} (hop : s.memRead s.pc = op.byte) :
    s.fetched op = s.latched (encode (s.fetchedInstr op)) := by
  rw [fetchedInstr_eq_build_memRead, encode_build, ← hop]
  cases op <;> rfl

/-- Settles O6: what decodes at `pc` is what the cycle fetches and runs. -/
theorem stepRunsTheDecodedInstruction : Obligations.StepRunsTheDecodedInstruction := by
  intro s i rest hs hdecode
  obtain ⟨op, hop, hp, rfl⟩ := fetched_of_decode hdecode
  rw [step_running hs, cycle_exec hop hp, fetched_eq_latched_encode hop]

/-! ## Checks, commit and retirement from the same memory, registers and output -/

theorem SameData.symm {s t : State} (h : SameData s t) : SameData t s :=
  ⟨h.1.symm, h.2.1.symm, h.2.2.symm⟩

theorem SameData.trans {s t u : State} (h : SameData s t) (h' : SameData t u) : SameData s u :=
  ⟨h'.1.trans h.1, h'.2.1.trans h.2.1, h'.2.2.trans h.2.2⟩

/-- The checks before a commit read memory and registers alone. -/
theorem faultBefore_congr {s t : State} (h : SameData s t) (i : Instr) :
    faultBefore i t = faultBefore i s := by
  have hpop (r : Reg) : popSp t r = popSp s r := by
    simp only [popSp, popAddress, State.sp_eq, h.reg, h.memRead]
  cases i <;> simp only [faultBefore, h.reg, hpop]

/-- A commit reads memory, registers and output alone. -/
theorem commit_congr {s t : State} (h : SameData s t) (i : Instr) :
    SameData (commit i s) (commit i t) := by
  obtain ⟨hmem, hx, hout⟩ := h
  cases s; cases t; cases hmem; cases hx; cases hout
  cases i <;> exact ⟨rfl, rfl, rfl⟩

/-- An instruction that passes its checks and has a next address retires: `pc` advances by its length, as
an integer (R95, R96). -/
theorem exec_retires {i : Instr} {s : State} (hi : i ≠ .hlt) (hf : faultBefore i s = none)
    (hl : s.pc.toNat + i.opcode.length ≤ 255) : ∃ t, exec i s = .next t ∧ t.status = s.status ∧
      t.pc.toNat = s.pc.toNat + i.opcode.length ∧ SameData (commit i s) t := by
  have hpc := (commit_frame i s).1
  rw [exec_eq, hf]
  dsimp only
  rw [finish_eq hi, retire_inside (by rwa [hpc]), hpc]
  exact ⟨_, rfl, commit_status hi s, advance_toNat hl, rfl, rfl, rfl⟩

/-- An instruction that passes its checks and has no next address commits and takes PC_OVERFLOW (R97). -/
theorem exec_overflows {i : Instr} {s : State} (hi : i ≠ .hlt) (hf : faultBefore i s = none)
    (hl : 255 < s.pc.toNat + i.opcode.length) : exec i s = .next ((commit i s).raise .pcOverflow) := by
  rw [exec_eq, hf]
  dsimp only
  rw [finish_eq hi, retire_overflow (by rwa [(commit_frame i s).1])]

/-- Fault entry records the code and the address that `pc` keeps (R171). -/
theorem faultRecorded_raise {s u : State} (hpc : u.pc = s.pc) (c : FaultCause) :
    FaultRecorded c.code s (u.raise c) :=
  ⟨rfl, rfl, hpc, hpc⟩

/-- Settles O32: the checks and the commit do not read `pc`, so only the retirement differs. -/
theorem pcOverflowKeepsTheEffects : Obligations.PcOverflowKeepsTheEffects := by
  intro s u i a _ hover _ hexec hu
  obtain ⟨-, rfl⟩ | ⟨c, -, rfl⟩ | ⟨hi, hf, -, rfl⟩ | ⟨-, -, -, rfl⟩ := exec_next hexec
  · cases hu
  · cases hu
  · have hsame : SameData (s.setPc a) s := ⟨rfl, rfl, rfl⟩
    have hf' : faultBefore i s = none := (faultBefore_congr hsame i).trans hf
    exact ⟨_, exec_overflows hi hf' hover, faultRecorded_raise (commit_frame i s).1 .pcOverflow,
      commit_congr hsame i⟩
  · cases hu

/-! ## What a fault leaves -/

/-- No check before a commit raises PC_OVERFLOW (R97). -/
theorem faultBefore_ne_pcOverflow {i : Instr} {s : State} {c : FaultCause}
    (h : faultBefore i s = some c) : c ≠ .pcOverflow := by
  obtain ⟨rfl, -⟩ | ⟨rfl, -⟩ | ⟨rfl, -⟩ := faultBefore_some h <;> decide

/-- Only PC_OVERFLOW has the code 4 (R160). -/
theorem code_ne_four {c : FaultCause} (hc : c ≠ .pcOverflow) : c.code ≠ 4#8 := by
  cases c <;> revert hc <;> decide

/-- A step that faults does so before its commit, with nothing but the latches changed, or it takes
PC_OVERFLOW after the commit of the fetched instruction (R97, R99). -/
theorem step_faulted {s t : State} (h : step s = .next t) (ht : t.status = .faulted) :
    (∃ u c, SameData s u ∧ u.pc = s.pc ∧ c ≠ .pcOverflow ∧ t = u.raise c) ∨
    (∃ op : Opcode, s.memRead s.pc = op.byte ∧ s.pc.toNat + op.operandCount ≤ 255 ∧
      s.fetchedInstr op ≠ .hlt ∧ faultBefore (s.fetchedInstr op) (s.fetched op) = none ∧
      t = (commit (s.fetchedInstr op) (s.fetched op)).raise .pcOverflow) := by
  obtain ⟨hs, ⟨-, rfl⟩ | ⟨op, -, -, rfl⟩ | ⟨op, hop, hp, hexec⟩⟩ := step_next h
  · exact .inl ⟨s.fetchOpcode, _, ⟨rfl, rfl, rfl⟩, rfl, by decide, rfl⟩
  · exact .inl ⟨s.fetchOpcode.partlyLatched, _, ⟨rfl, rfl, rfl⟩, rfl, by decide, rfl⟩
  · obtain ⟨-, -, hpc, hstatus, -⟩ := fetched_frame s op
    obtain ⟨-, rfl⟩ | ⟨c, hc, rfl⟩ | ⟨hi, -, -, rfl⟩ | ⟨hi, hf, -, rfl⟩ := exec_next hexec
    · cases ht
    · exact .inl ⟨_, c, fetched_sameData s op, hpc, faultBefore_ne_pcOverflow hc, rfl⟩
    · rw [State.setPc_status, commit_status hi, hstatus, hs] at ht
      cases ht
    · exact .inr ⟨op, hop, hp, hi, hf, rfl⟩

/-- No instruction is longer than three bytes (R65). -/
theorem length_le_three (op : Opcode) : op.length ≤ 3 :=
  Nat.add_le_add_left op.operandCount_le_two 1

/-- Settles O34: a fault before the commit changes nothing but latches and record; in a PC_OVERFLOW the
commit is the one that retires the same instruction at address 0. -/
theorem faultsArePrecise : Obligations.FaultsArePrecise := by
  intro s t h ht
  obtain ⟨u, c, hsame, hpc, hc, rfl⟩ | ⟨op, hop, hp, hi, hf, rfl⟩ := step_faulted h ht
  · refine ⟨fun _ => ⟨faultRecorded_raise hpc c, hsame.memRead, fun q _ => hsame.reg q, hsame.2.2⟩, ?_⟩
    exact fun hcode => absurd hcode (code_ne_four hc)
  · obtain ⟨-, -, hpc, -⟩ := fetched_frame s op
    have hs := running_of_step h
    have hzero : SameData (s.fetched op) (s.setPc 0#8) := (fetched_sameData s op).symm
    have hlen : (s.setPc 0#8).pc.toNat + (s.fetchedInstr op).opcode.length ≤ 255 :=
      (Nat.add_le_add_left (length_le_three _) 0).trans (by decide)
    obtain ⟨rest, hdecode⟩ := decode_codeBytes hop hp
    obtain ⟨u, hexec, hu, -, hdata⟩ := exec_retires hi ((faultBefore_congr hzero _).trans hf) hlen
    refine ⟨fun hne => absurd rfl hne, fun _ => ⟨?_, _, rest, u, hdecode, hexec, hu.trans hs, ?_⟩⟩
    · exact faultRecorded_raise ((commit_frame _ _).1.trans hpc) .pcOverflow
    · exact ((commit_congr hzero _).trans hdata).symm

/-! ## The advance of `pc` -/

theorem regByte_eq_seven {r : Reg} : regByte r = 7#8 ↔ r = 7 := by
  rw [← BitVec.toNat_inj, regByte_toNat, Fin.ext_iff]; rfl

/-- R170's conditions on the index bytes, as `tableFault` writes them, are the index check (R69, R94). -/
theorem wellFormed_build (op : Opcode) (b1 b2 : Byte) : (op.build b1 b2).WellFormed ↔
    ¬(1 ≤ op.operandCount ∧ 7 < b1.toNat) ∧ ¬(op.byte = 0xA2#8 ∧ 7 < b2.toNat) := by
  cases op <;> simp [Instr.WellFormed, Instr.wellFormed, Instr.regOperands, Opcode.build, namesRegister,
    Opcode.operandCount, Opcode.format, Format.operandCount, Opcode.byte]

/-- One check and what is reported where it passes. -/
theorem ite_some_or (p : Prop) [Decidable p] (c : FaultCause) (later : Option Byte) :
    ((if p then some c else none).map FaultCause.code).or later = if p then some c.code else later := by
  split_ifs <;> rfl

/-- R170's conditions on register index and stack, as `tableFault` writes them, are the checks before the
commit (R94, R95); `later` is what a step reports where they pass. -/
theorem faultBefore_build (op : Opcode) (b1 b2 : Byte) (s : State) (later : Option Byte) :
    ((faultBefore (op.build b1 b2) s).map FaultCause.code).or later =
      if 1 ≤ op.operandCount ∧ 7 < b1.toNat then some 2#8
      else if op.byte = 0xA2#8 ∧ 7 < b2.toNat then some 2#8
      else if op.byte = 0x45#8 ∧ s.reg 7 = 0#8 then some 5#8
      else if op.byte = 0x46#8 ∧ (if b1 = 7#8 then s.memRead (s.reg 7) else s.reg 7) = 255#8 then some 6#8
      else later := by
  by_cases hwf : (op.build b1 b2).WellFormed
  · obtain ⟨hb1, hb2⟩ := (wellFormed_build op b1 b2).1 hwf
    rw [if_neg hb1, if_neg hb2, faultBefore.eq_def, if_pos hwf]
    cases op with
    | push => exact (ite_some_or _ _ _).trans (if_congr (by simp [Opcode.byte, ← BitVec.toNat_inj]) rfl rfl)
    | pop =>
      obtain ⟨r, rfl⟩ := namesRegister_iff.1 (wellFormed_pop.symm.trans hwf)
      have hsp : (if regByte r = 7#8 then s.memRead (s.reg 7) else s.reg 7) = popSp s r :=
        if_congr regByte_eq_seven rfl rfl
      rw [if_neg (c := _ = 0x45#8 ∧ _) (fun h => absurd h.1 (by decide)), hsp]
      exact (ite_some_or _ _ _).trans (if_congr (by simp [Opcode.byte, ← BitVec.toNat_inj]) rfl rfl)
    | _ => rfl
  · rw [faultBefore.eq_def, if_neg hwf]
    rw [wellFormed_build, not_and_or, not_not, not_not] at hwf
    obtain hb1 | hb2 := hwf
    · rw [if_pos hb1]; rfl
    · rw [if_pos hb2, ite_self]; rfl

/-- The table of R170 for a legal opcode: operand range, then the checks before the commit, then the next
address. -/
theorem tableFault_legal {s : State} {op : Opcode} (hop : s.memRead s.pc = op.byte) :
    tableFault s =
      if 255 < s.pc.toNat + op.operandCount then some 3#8
      else ((faultBefore (s.fetchedInstr op) (s.fetched op)).map FaultCause.code).or
        (if op.byte ≠ 0x01#8 ∧ 255 < s.pc.toNat + op.length then some 4#8 else none) := by
  have htable : tableOperandCount op.byte = some op.operandCount :=
    tableOperandCount_eq_some.2 ⟨op, rfl, rfl⟩
  rw [faultBefore_congr (fetched_sameData s op), fetchedInstr_eq_build_memRead, faultBefore_build,
    Opcode.length, ← Nat.add_assoc, tableFault.eq_def]
  dsimp only
  rw [hop, htable]

/-- Where no fault condition applies, the operand bytes exist, the checks pass, and but for HLT there is a
next address (R170). -/
theorem of_tableFault_eq_none {s : State} (h : tableFault s = none) : ∃ op : Opcode,
    s.memRead s.pc = op.byte ∧ s.pc.toNat + op.operandCount ≤ 255 ∧
    faultBefore (s.fetchedInstr op) (s.fetched op) = none ∧
    (op = .hlt ∨ s.pc.toNat + op.length ≤ 255) := by
  cases ho : Opcode.ofByte (s.memRead s.pc) with
  | none => simp [tableFault, tableOperandCount_eq_none.2 ho] at h
  | some op =>
    have hop := Opcode.ofByte_eq_some.1 ho
    rw [tableFault_legal hop] at h
    have hp : s.pc.toNat + op.operandCount ≤ 255 := by
      by_contra hp
      rw [if_pos (Nat.lt_of_not_le hp)] at h
      cases h
    rw [if_neg (Nat.not_lt.2 hp), Option.or_eq_none_iff, Option.map_eq_none_iff] at h
    obtain ⟨hf, hnext⟩ := h
    refine ⟨op, hop, hp, hf, or_iff_not_imp_left.2 fun hhlt => Nat.le_of_not_lt fun hl => ?_⟩
    rw [if_pos ⟨fun hbyte => hhlt (opcode_eq_of_byte_eq hbyte), hl⟩] at hnext
    cases hnext

/-- Settles O8: where no condition applies, HLT's commit leaves `pc`, and every other instruction retires. -/
theorem pcAdvancesByTheLength : Obligations.PcAdvancesByTheLength := by
  intro s hs htable
  obtain ⟨op, hop, hp, hf, hl⟩ := of_tableFault_eq_none htable
  obtain ⟨-, -, hpc, hstatus, -⟩ := fetched_frame s op
  rw [step_running hs, cycle_exec hop hp, hop]
  by_cases hhlt : op = .hlt
  · subst hhlt
    exact ⟨_, rfl, .inl ⟨rfl, rfl, rfl⟩⟩
  · have hlen : (s.fetched op).pc.toNat + (s.fetchedInstr op).opcode.length ≤ 255 := by
      rw [hpc, fetchedInstr_opcode]
      exact hl.resolve_left hhlt
    obtain ⟨t, hexec, ht, htpc, -⟩ := exec_retires (fetchedInstr_ne_hlt hhlt s) hf hlen
    rw [hpc, fetchedInstr_opcode] at htpc
    refine ⟨t, hexec, .inr ?_⟩
    cases op with
    | hlt => exact absurd rfl hhlt
    | prn | push | pop => exact .inl ⟨by decide, ht.trans (hstatus.trans hs), htpc⟩
    | ldi | mul => exact .inr ⟨by decide, ht.trans (hstatus.trans hs), htpc⟩

/-! ## The length of a run -/

/-- Every instruction but HLT has an operand byte (R71, R72). -/
theorem two_le_length {i : Instr} (h : i ≠ .hlt) : 2 ≤ i.opcode.length := by
  cases i with
  | hlt => exact absurd rfl h
  | prn | push | pop => exact Nat.le_refl 2
  | ldi | mul => exact Nat.le_succ 2

/-- A step ends the run or raises `pc` by at least 2 (R101). -/
theorem step_ends_or_advances {s t : State} (h : step s = .next t) :
    t.Ended ∨ (t.status = .running ∧ s.pc.toNat + 2 ≤ t.pc.toNat) := by
  obtain ⟨v1, v2, c, -, rfl⟩ | ⟨op, -, -, hfin⟩ := step_stops_or_finishes h
  · exact .inl (.inr rfl)
  · obtain ⟨-, -, hpc, hstatus, -⟩ := fetched_frame s op
    by_cases hi : s.fetchedInstr op = .hlt
    · rw [hi] at hfin
      cases hfin
      exact .inl (.inl rfl)
    · rw [finish_eq hi] at hfin
      obtain ⟨hl, rfl⟩ | ⟨-, rfl⟩ := retire_next hfin
      · refine .inr ⟨(commit_status hi _).trans (hstatus.trans (running_of_step h)), ?_⟩
        rw [State.setPc_pc, advance_toNat hl, (commit_frame _ _).1, hpc]
        exact Nat.add_le_add_left (two_le_length hi) _
      · exact .inl (.inr rfl)

/-- A run goes on from the state its first step answers. -/
theorem run_succ {M : Host.Core} {s t : M.State} (h : M.step s = .next t) (k : Nat) :
    M.run (k + 1) s = M.run k t := by
  rw [Host.Core.run, h]

/-- R101's bound, by induction on how far `pc` is from the top of memory. -/
theorem run_ends {s : State} (hs : s.status = .running) : ∃ (k : Nat) (t : State),
    k ≤ (257 - s.pc.toNat) / 2 ∧ Host.Core.run core k s = .next t ∧ t.Ended := by
  induction hn : 255 - s.pc.toNat using Nat.strongRecOn generalizing s with
  | ind n ih =>
    have hpc := s.pc.isLt
    obtain ⟨t, hstep⟩ := step_answers hs
    obtain hended | ⟨ht, hadvance⟩ := step_ends_or_advances hstep
    · exact ⟨1, t, by omega, run_succ (M := core) hstep 0, hended⟩
    · have htpc := t.pc.isLt
      obtain ⟨k, u, hk, hrun, hended⟩ := ih _ (by omega) ht rfl
      exact ⟨k + 1, u, by omega, (run_succ (M := core) hstep k).trans hrun, hended⟩

/-- The launch of an image that fits leaves the machine RUNNING at address 0 (R191, R193, R195). -/
theorem launch_fits {image : List Byte} (h : image.length ≤ 256) :
    (launch image).status = .running ∧ (launch image).pc = 0#8 := by
  obtain ⟨m, hload, -⟩ := loadFrom_spec image (s := State.reset) 0 rfl (by omega)
  have himage : loadImage image State.reset = some { State.reset with mem := m } :=
    (if_pos h).trans (congrArg some hload)
  rw [launch, himage]
  exact ⟨rfl, rfl⟩

/-- Settles O50: a launched run starts at address 0, where the bound is 128. -/
theorem everyRunEndsWithin128Steps : Obligations.EveryRunEndsWithin128Steps := by
  refine ⟨fun s hs => run_ends hs, fun image himage => ?_⟩
  obtain ⟨hs, hpc⟩ := launch_fits himage
  have hrun := run_ends hs
  rwa [hpc] at hrun

end Sys2Proof.Machine
end

section
/-! PROOFS. The statements on the system and output instructions (spec/41_system.md): HLT and PRN, as meanings
and from the bytes in memory, and how a run ends normally. What a step from a legal opcode byte does is said
once, for every opcode. -/

namespace Sys2Proof.Machine

/-! ## A step from a legal opcode byte, stage by stage -/

/-- A fault entry from a state with the same memory, registers, output and `pc` is precise (R99, R173). -/
theorem preciseFault_raise {s u : State} (hsame : SameData s u) (hpc : u.pc = s.pc) (c : FaultCause) :
    PreciseFault c.code s (u.raise c) :=
  ⟨faultRecorded_raise hpc c, hsame.memRead, fun q _ => hsame.reg q, hsame.2.2⟩

/-- An instruction that passes its checks and has a next address commits, and `pc` advances (R95, R96). -/
theorem exec_advances {i : Instr} {s : State} (hi : i ≠ .hlt) (hf : faultBefore i s = none)
    (hl : s.pc.toNat + i.opcode.length ≤ 255) :
    exec i s = .next ((commit i s).setPc (s.pc + BitVec.ofNat 8 i.opcode.length)) := by
  have hpc := (commit_frame i s).1
  rw [exec_eq, hf]
  dsimp only
  rw [finish_eq hi, retire_inside (by rwa [hpc]), hpc]

section
variable {s : State} {op : Opcode} (hs : s.status = .running) (hop : s.memRead s.pc = op.byte)
include hs hop

/-- Stage 3: an operand byte above the memory is OPERAND_RANGE (R93). -/
theorem step_operandRange (hp : 255 < s.pc.toNat + op.operandCount) :
    ∃ t, step s = .next t ∧ PreciseFault 3#8 s t :=
  ⟨_, (step_running hs).trans (cycle_above hop hp),
    preciseFault_raise (u := s.fetchOpcode.partlyLatched) ⟨rfl, rfl, rfl⟩ rfl .operandRange⟩

/-- Stages 3b and 4: a check before the commit that fails is what the step reports (R94, R95). -/
theorem step_checkFails (hp : s.pc.toNat + op.operandCount ≤ 255) {c : FaultCause}
    (hf : faultBefore (s.fetchedInstr op) s = some c) :
    ∃ t, step s = .next t ∧ PreciseFault c.code s t := by
  have hsame := fetched_sameData s op
  obtain ⟨-, -, hpc, -⟩ := fetched_frame s op
  refine ⟨_, ?_, preciseFault_raise hsame hpc c⟩
  rw [step_running hs, cycle_exec hop hp, exec_eq, faultBefore_congr hsame, hf]

/-- Stages 4 and 5: where the checks pass the instruction commits, and then `pc` advances by its length or,
where there is no next address, PC_OVERFLOW is recorded (R95 to R97). -/
theorem step_commits (hhlt : op ≠ .hlt) (hp : s.pc.toNat + op.operandCount ≤ 255)
    (hf : faultBefore (s.fetchedInstr op) s = none) :
    ∃ t, step s = .next t ∧ SameData (commit (s.fetchedInstr op) s) t ∧
      if 255 < s.pc.toNat + op.length then FaultRecorded 4#8 s t
      else t.pc.toNat = s.pc.toNat + op.length ∧ SameControl s t := by
  have hsame := fetched_sameData s op
  have hcommit := commit_congr hsame (s.fetchedInstr op)
  have hi := fetchedInstr_ne_hlt hhlt s
  have hf' := (faultBefore_congr hsame _).trans hf
  have hlen : (s.fetchedInstr op).opcode.length = op.length := by rw [fetchedInstr_opcode]
  obtain ⟨-, -, hpc, hstatus, hcause, hfaultPc, -⟩ := fetched_frame s op
  obtain ⟨hcpc, hccause, hcfaultPc, -⟩ := commit_frame (s.fetchedInstr op) (s.fetched op)
  rw [step_running hs, cycle_exec hop hp]
  split_ifs with hl
  · exact ⟨_, exec_overflows hi hf' (by rwa [hpc, hlen]), hcommit,
      faultRecorded_raise (hcpc.trans hpc) .pcOverflow⟩
  · have hl' := Nat.le_of_not_lt hl
    refine ⟨_, exec_advances hi hf' (by rwa [hpc, hlen]), hcommit, ?_, (commit_status hi _).trans hstatus,
      hccause.trans hcause, hcfaultPc.trans hfaultPc⟩
    rw [State.setPc_pc, hpc, hlen, advance_toNat hl']

end

/-! ## HLT -/

/-- Settles O15: HLT's meaning is the change of status. -/
theorem hltCompletes : Obligations.HltCompletes := fun _ =>
  ⟨_, rfl, rfl, rfl, rfl, rfl, fun _ _ => rfl, fun _ => rfl, rfl, rfl, rfl, rfl⟩

/-- Settles O21: HLT has no operand byte, so it runs at every address, 255 included. -/
theorem hltRule : Obligations.HltRule := by
  intro s hs hop
  have hp : s.pc.toNat + Opcode.hlt.operandCount ≤ 255 := Nat.le_of_lt_succ s.pc.isLt
  have hstep : step s = .next ((s.fetched .hlt).setStatus .halted) :=
    (step_running hs).trans (cycle_exec hop hp)
  exact ⟨_, hstep, rfl, rfl, fun _ _ => rfl, fun _ => rfl, rfl, rfl, rfl⟩

/-- How a step ends: HALTED from HLT alone, and otherwise RUNNING or FAULTED (R102). -/
theorem step_status {s t : State} (h : step s = .next t) :
    (t.status = .halted ∧ s.memRead s.pc = 0x01#8) ∨ t.status = .running ∨ t.status = .faulted := by
  obtain ⟨v1, v2, c, -, rfl⟩ | ⟨op, hop, -, hfin⟩ := step_stops_or_finishes h
  · exact .inr (.inr rfl)
  · by_cases hhlt : op = .hlt
    · subst hhlt
      cases hfin
      exact .inl ⟨rfl, hop⟩
    · obtain ⟨-, -, -, hstatus, -⟩ := fetched_frame s op
      have hi := fetchedInstr_ne_hlt hhlt s
      rw [finish_eq hi] at hfin
      obtain ⟨-, rfl⟩ | ⟨-, rfl⟩ := retire_next hfin
      · exact .inr (.inl ((commit_status hi _).trans (hstatus.trans (running_of_step h))))
      · exact .inr (.inr rfl)

/-- Settles O9: a step that ends HALTED is HLT's, and HLT's step ends HALTED by its rule. -/
theorem onlyHltEndsARunNormally : Obligations.OnlyHltEndsARunNormally := by
  intro s t h
  have hhalts : s.memRead s.pc = 0x01#8 → t.status = .halted := fun hop => by
    obtain ⟨u, hu, hhalted, -⟩ := hltRule s (running_of_step h) hop
    cases h.symm.trans hu
    exact hhalted
  obtain ⟨ht, hop⟩ | ht | ht := step_status h
  · exact ⟨iff_of_true ht hop, .inr (.inl ht)⟩
  · exact ⟨⟨fun hhalted => absurd (ht.symm.trans hhalted) (by decide), hhalts⟩, .inl ht⟩
  · exact ⟨⟨fun hhalted => absurd (ht.symm.trans hhalted) (by decide), hhalts⟩, .inr (.inr ht)⟩

/-! ## PRN -/

/-- Settles O17: a register index passes the check, and the emission retires. -/
theorem prnCompletes : Obligations.PrnCompletes := by
  intro s q hl
  have hexec : exec (.prn (regByte q)) s = .next ((s.emit (s.reg q)).setPc (s.pc + 2#8)) :=
    (withReg_regByte ..).trans (retire_inside hl)
  exact ⟨_, hexec, rfl, fun _ _ => rfl, advance_toNat hl, fun _ => rfl, ⟨rfl, rfl, rfl⟩, rfl, rfl, rfl⟩

/-- PRN's one check is that of its index byte (R94, R112). -/
theorem faultBefore_prn (r : Byte) (s : State) :
    faultBefore (.prn r) s = if namesRegister r then none else some .illegalRegister := by
  rw [faultBefore.eq_def, wellFormed_prn]

/-- Settles O23: the operand fetch, the index check and the retirement decide in this order. -/
theorem prnRule : Obligations.PrnRule := by
  intro s hs hop
  have hpc := s.pc.isLt
  by_cases htop : s.pc.toNat = 255
  · simp only [if_pos htop]
    exact step_operandRange (op := .prn) hs hop (by rw [htop]; decide)
  · have hp : s.pc.toNat + 1 ≤ 255 := by omega
    simp only [if_neg htop]
    have hcheck := faultBefore_prn (s.memRead (s.pc + 1#8)) s
    obtain ⟨q, hq, hnames⟩ | ⟨hr, hnames⟩ := regByte_or_illegal (s.memRead (s.pc + 1#8))
    · have hlegal : ¬ 7 < (s.memRead (s.pc + 1#8)).toNat := by rw [hq, regByte_toNat]; omega
      rw [hnames] at hcheck
      obtain ⟨t, hstep, hdata, hretire⟩ := step_commits (op := .prn) hs hop (by decide) hp hcheck
      have hout : t.out = s.out ++ [s.reg q] := by
        rw [hdata.2.2, fetchedInstr_eq_build, hq]
        simp [Opcode.build, commit]
      have hlast : 255 < s.pc.toNat + Opcode.prn.length ↔ s.pc.toNat = 254 := by
        change 255 < s.pc.toNat + 2 ↔ _
        omega
      simp only [if_neg hlegal]
      refine ⟨t, hstep, ⟨q, hq.symm, hout⟩, fun r _ => hdata.reg r, hdata.memRead, ?_⟩
      exact (if_congr hlast rfl rfl).mp hretire
    · rw [hnames] at hcheck
      simp only [if_pos hr]
      exact step_checkFails (op := .prn) hs hop hp hcheck

end Sys2Proof.Machine
end

section
/-! PROOFS. The statements on data movement (spec/42_data.md): LDI, as a meaning and from the bytes in
memory. -/

namespace Sys2Proof.Machine

/-- Different registers have different index bytes (R69). -/
theorem regByte_inj {p q : Reg} : regByte p = regByte q ↔ p = q := by
  rw [← BitVec.toNat_inj, regByte_toNat, regByte_toNat, Fin.ext_iff]

/-- Settles O16: a register index passes the check, and the register write retires. -/
theorem ldiCompletes : Obligations.LdiCompletes := by
  intro s q imm hl
  have hexec : exec (.ldi (regByte q) imm) s = .next ((s.setReg q imm).setPc (s.pc + 3#8)) :=
    (withReg_regByte ..).trans (retire_inside hl)
  have hreg (r : Reg) := State.setReg_reg s q imm r
  refine ⟨_, hexec, (hreg q).trans (if_pos rfl), fun r hr => (hreg r).trans (if_neg ?_), advance_toNat hl,
    fun _ => rfl, rfl, ⟨rfl, rfl, rfl⟩, rfl, rfl, rfl⟩
  exact List.ne_of_not_mem_cons hr

/-- LDI's one check is that of its index byte; the immediate is never checked (R94, R120). -/
theorem faultBefore_ldi (r imm : Byte) (s : State) :
    faultBefore (.ldi r imm) s = if namesRegister r then none else some .illegalRegister := by
  rw [faultBefore.eq_def, wellFormed_ldi]

/-- LDI's commit writes the immediate to the register whose index byte it names, and to no other (R120). -/
theorem commit_ldi_reg (p : Reg) (imm : Byte) (s : State) (q : Reg) :
    (commit (.ldi (regByte p) imm) s).reg q = if regByte q = regByte p then imm else s.reg q := by
  rw [commit, regOf_regByte, State.setReg_reg]
  exact if_congr regByte_inj.symm rfl rfl

/-- Settles O22: the operand fetch, the index check and the retirement decide in this order. -/
theorem ldiRule : Obligations.LdiRule := by
  intro s hs hop
  by_cases htop : 254 ≤ s.pc.toNat
  · have hp : 255 < s.pc.toNat + 2 := by omega
    simp only [if_pos htop]
    exact step_operandRange (op := .ldi) hs hop hp
  · have hp : s.pc.toNat + 2 ≤ 255 := by omega
    simp only [if_neg htop]
    have hcheck := faultBefore_ldi (s.memRead (s.pc + 1#8)) (s.memRead (s.pc + 2#8)) s
    obtain ⟨p, hb1, hnames⟩ | ⟨hr, hnames⟩ := regByte_or_illegal (s.memRead (s.pc + 1#8))
    · have hlegal : ¬ 7 < (s.memRead (s.pc + 1#8)).toNat := by rw [hb1, regByte_toNat]; omega
      rw [hnames] at hcheck
      obtain ⟨t, hstep, hdata, hretire⟩ := step_commits (op := .ldi) hs hop (by decide) hp hcheck
      have hreg (q : Reg) : t.reg q =
          if regByte q = s.memRead (s.pc + 1#8) then s.memRead (s.pc + 2#8) else s.reg q := by
        rw [hdata.reg, fetchedInstr_eq_build_memRead, hb1]
        exact commit_ldi_reg ..
      have hlast : 255 < s.pc.toNat + Opcode.ldi.length ↔ s.pc.toNat = 253 := by
        change 255 < s.pc.toNat + 3 ↔ _
        omega
      simp only [if_neg hlegal]
      refine ⟨t, hstep, hreg, hdata.memRead, hdata.2.2, ?_⟩
      exact (if_congr hlast rfl rfl).mp hretire
    · rw [hnames] at hcheck
      simp only [if_pos hr]
      exact step_checkFails (op := .ldi) hs hop hp hcheck

end Sys2Proof.Machine
end

section
/-! PROOFS. The statements on arithmetic (spec/43_alu.md): the ALU's MUL and ADD, and MUL as a meaning and
from the bytes in memory. -/

namespace Sys2Proof.Machine

/-! ## The write of a low byte -/

/-- A register that is written the low byte of a number holds that number modulo 256 (R8). -/
theorem setReg_ofNat_reg_toNat (s : State) (p : Reg) (n : Nat) :
    ((s.setReg p (BitVec.ofNat 8 n)).reg p).toNat = n % 256 := by
  rw [State.setReg_reg, if_pos rfl, BitVec.toNat_ofNat]

/-- A register write changes no other register. -/
theorem setReg_sameRegsBut (s : State) (p : Reg) (v : Byte) : SameRegsBut [p] s (s.setReg p v) :=
  fun r hr => (State.setReg_reg s p v r).trans (if_neg (List.ne_of_not_mem_cons hr))

/-- Settles O35: both operations are the write of a low byte to the first register. -/
theorem aluWritesTheLowByte : Obligations.AluWritesTheLowByte := fun s p q =>
  ⟨⟨_, alu_mul p q s, setReg_ofNat_reg_toNat .., setReg_sameRegsBut s p _, rfl⟩,
    ⟨_, alu_add p q s, setReg_ofNat_reg_toNat .., setReg_sameRegsBut s p _, rfl⟩⟩

/-! ## MUL -/

/-- Settles O18: both register indices pass their checks, and the ALU's write retires. -/
theorem mulCompletes : Obligations.MulCompletes := by
  intro s p q hl
  have hexec : exec (.mul (regByte p) (regByte q)) s =
      .next ((s.setReg p (BitVec.ofNat 8 ((s.reg p).toNat * (s.reg q).toNat))).setPc (s.pc + 3#8)) :=
    (withReg_regByte ..).trans ((withReg_regByte ..).trans (retire_inside hl))
  exact ⟨_, hexec, setReg_ofNat_reg_toNat .., setReg_sameRegsBut s p _, advance_toNat hl, fun _ => rfl, rfl,
    ⟨rfl, rfl, rfl⟩, rfl, rfl, rfl⟩

/-- MUL's checks before the commit are those of its two index bytes (R94, R130). -/
theorem faultBefore_mul (a b : Byte) (s : State) : faultBefore (.mul a b) s =
    if namesRegister a && namesRegister b then none else some .illegalRegister := by
  rw [faultBefore.eq_def, wellFormed_mul]

/-- MUL's commit writes the low byte of the product to the first register it names (R126, R130). -/
theorem commit_mul (p q : Reg) (s : State) : commit (.mul (regByte p) (regByte q)) s =
    s.setReg p (BitVec.ofNat 8 ((s.reg p).toNat * (s.reg q).toNat)) := by
  rw [commit, regOf_regByte, regOf_regByte]

section
variable {s : State} (hs : s.status = .running) (hop : s.memRead s.pc = 0xA2#8)
  (hp : s.pc.toNat + 2 ≤ 255)
include hs hop hp

/-- A MUL with an index byte above 7, the first or the second, reports ILLEGAL_REGISTER (R94). -/
theorem step_mul_illegal (h : (namesRegister (s.memRead (s.pc + 1#8)) &&
    namesRegister (s.memRead (s.pc + 2#8))) = false) : ∃ t, step s = .next t ∧ PreciseFault 2#8 s t := by
  refine step_checkFails (op := .mul) (c := .illegalRegister) hs hop hp ?_
  rw [fetchedInstr_eq_build_memRead]
  exact (faultBefore_mul ..).trans (by rw [h]; rfl)

/-- A MUL of two registers writes the low byte of their product and retires, or records PC_OVERFLOW (R130). -/
theorem step_mul_commits {p q : Reg} (hb1 : s.memRead (s.pc + 1#8) = regByte p)
    (hb2 : s.memRead (s.pc + 2#8) = regByte q) : ∃ t, step s = .next t ∧
      SameData (s.setReg p (BitVec.ofNat 8 ((s.reg p).toNat * (s.reg q).toNat))) t ∧
      if s.pc.toNat = 253 then FaultRecorded 4#8 s t
      else t.pc.toNat = s.pc.toNat + 3 ∧ SameControl s t := by
  have hinstr : s.fetchedInstr .mul = .mul (regByte p) (regByte q) := by
    rw [fetchedInstr_eq_build_memRead, hb1, hb2]; rfl
  have hcheck : faultBefore (s.fetchedInstr .mul) s = none := by
    rw [hinstr, faultBefore_mul, namesRegister_iff.2 ⟨p, rfl⟩, namesRegister_iff.2 ⟨q, rfl⟩]; rfl
  have hlast : 255 < s.pc.toNat + Opcode.mul.length ↔ s.pc.toNat = 253 := by
    change 255 < s.pc.toNat + 3 ↔ _
    omega
  obtain ⟨t, hstep, hdata, hretire⟩ := step_commits (op := .mul) hs hop (by decide) hp hcheck
  rw [hinstr, commit_mul] at hdata
  exact ⟨t, hstep, hdata, (if_congr hlast rfl rfl).mp hretire⟩

end

/-- Settles O24: the operand fetch, the two index checks and the retirement decide in this order. -/
theorem mulRule : Obligations.MulRule := by
  intro s hs hop
  by_cases htop : 254 ≤ s.pc.toNat
  · have hp : 255 < s.pc.toNat + 2 := by omega
    simp only [if_pos htop]
    exact step_operandRange (op := .mul) hs hop hp
  · have hp : s.pc.toNat + 2 ≤ 255 := by omega
    have hlegal (r : Reg) : ¬ 7 < (regByte r).toNat := by rw [regByte_toNat]; omega
    simp only [if_neg htop]
    obtain ⟨p, hb1, hnames1⟩ | ⟨habove, hnames1⟩ := regByte_or_illegal (s.memRead (s.pc + 1#8))
    · simp only [if_neg (hb1 ▸ hlegal p)]
      obtain ⟨q, hb2, -⟩ | ⟨habove, hnames2⟩ := regByte_or_illegal (s.memRead (s.pc + 2#8))
      · simp only [if_neg (hb2 ▸ hlegal q)]
        obtain ⟨t, hstep, hdata, hretire⟩ := step_mul_commits hs hop hp hb1 hb2
        have hproduct : (t.reg p).toNat = (s.reg p).toNat * (s.reg q).toNat % 256 := by
          rw [hdata.reg, setReg_ofNat_reg_toNat]
        have hregs : SameRegsBut [p] s t := fun r hr =>
          (hdata.reg r).trans (setReg_sameRegsBut s p _ r hr)
        exact ⟨t, hstep, ⟨p, q, hb1.symm, hb2.symm, hproduct, hregs⟩, hdata.memRead, hdata.2.2, hretire⟩
      · simp only [if_pos habove]
        exact step_mul_illegal hs hop hp (by rw [hnames1, hnames2]; rfl)
    · simp only [if_pos habove]
      exact step_mul_illegal hs hop hp (by rw [hnames1]; rfl)

end Sys2Proof.Machine
end

section
/-! PROOFS. The statements on the stack (spec/44_stack.md): PUSH and POP, as meanings and from the bytes in
memory, their boundaries, and the laws of pushes and pops in succession. -/

namespace Sys2Proof.Machine

/-! ## What the two commits write -/

/-- PUSH's commit changes SP alone among the registers (R140). -/
theorem pushed_reg (s : State) (p q : Reg) :
    (s.pushed p).reg q = if q = 7 then pushAddress (s.reg 7) else s.reg q := by
  rw [State.pushed_eq, State.memWrite_reg, State.setSp_reg, pushAddress]

theorem pushed_sameRegsBut (s : State) (q : Reg) : SameRegsBut [7] s (s.pushed q) :=
  fun r hr => (pushed_reg s q r).trans (if_neg (List.ne_of_not_mem_cons hr))

/-- PUSH's commit stores one byte, the source as it stands after the decrement (R140). -/
theorem pushed_memRead (s : State) (p : Reg) (a : Byte) :
    (s.pushed p).memRead a = if a = pushAddress (s.reg 7) then
      (if p = 7 then pushAddress (s.reg 7) else s.reg p) else s.memRead a := by
  rw [State.pushed_eq, State.memWrite_memRead, State.setSp_memRead, pushAddress]

theorem pushed_sameMemoryBut (s : State) (q : Reg) :
    SameMemoryBut (pushAddress (s.reg 7)) s (s.pushed q) :=
  fun a ha => (pushed_memRead s q a).trans (if_neg ha)

/-- The byte at the new SP is the source register's value after the decrement, R7's included (R140). -/
theorem pushed_memRead_sp (s : State) (q : Reg) :
    (s.pushed q).memRead ((s.pushed q).reg 7) = (s.pushed q).reg q := by
  rw [pushed_reg s q 7, if_pos rfl, pushed_memRead, if_pos rfl, pushed_reg]

/-- POP's commit changes its destination and SP, which it writes last (R145). -/
theorem popped_reg (s : State) (p q : Reg) : (s.popped p).reg q =
    if q = 7 then popSp s p + 1#8 else if q = p then s.memRead (s.reg 7) else s.reg q := by
  rw [State.popped_eq, State.setSp_reg, State.setReg_reg, popSp, popAddress, State.sp_eq, spIndex_eq]

/-- Above address 0 the decrement of SP does not wrap (R141). -/
theorem pushAddress_toNat {sp : Byte} (h : sp.toNat ≠ 0) : (pushAddress sp).toNat = sp.toNat - 1 := by
  unfold pushAddress
  bv_omega

/-- Below address 255 the increment of SP does not wrap (R146). -/
theorem increment_toNat {sp : Byte} (h : sp.toNat ≠ 255) : (sp + 1#8).toNat = sp.toNat + 1 := by
  bv_omega

/-! ## The meanings -/

/-- PUSH with room below SP and a next address commits and advances (R140). -/
theorem exec_push {s : State} (q : Reg) (hl : s.pc.toNat + 2 ≤ 255) (h : (s.reg 7).toNat ≠ 0) :
    exec (.push (regByte q)) s = .next ((s.pushed q).setPc (s.pc + 2#8)) := by
  have hroom : stackOverflows s.sp = false := decide_eq_false h
  exact (withReg_regByte ..).trans ((if_neg (by rw [hroom]; decide)).trans (retire_inside hl))

/-- PUSH at SP = 0 takes STACK_OVERFLOW (R141). -/
theorem exec_push_overflow {s : State} (q : Reg) (h : (s.reg 7).toNat = 0) :
    exec (.push (regByte q)) s = .next (s.raise .stackOverflow) :=
  (withReg_regByte ..).trans (if_pos (decide_eq_true h))

/-- POP with room above the SP it increments and a next address commits and advances (R145). -/
theorem exec_pop {s : State} (q : Reg) (hl : s.pc.toNat + 2 ≤ 255) (h : (popSp s q).toNat ≠ 255) :
    exec (.pop (regByte q)) s = .next ((s.popped q).setPc (s.pc + 2#8)) := by
  have hroom : stackUnderflows (popSp s q) = false := decide_eq_false h
  exact (withReg_regByte ..).trans ((if_neg (by rw [hroom]; decide)).trans (retire_inside hl))

/-- POP takes STACK_UNDERFLOW where the SP to increment is 255 (R146). -/
theorem exec_pop_underflow {s : State} (q : Reg) (h : (popSp s q).toNat = 255) :
    exec (.pop (regByte q)) s = .next (s.raise .stackUnderflow) :=
  (withReg_regByte ..).trans (if_pos (decide_eq_true h))

/-- Settles O19: with room below SP the check passes, and the commit retires. -/
theorem pushCompletes : Obligations.PushCompletes := by
  intro s q hl hsp
  have hsp' : (s.reg 7).toNat ≠ 0 := BitVec.toNat_ne.1 hsp
  exact ⟨_, exec_push q hl hsp', pushAddress_toNat hsp', (pushed_reg s q 7).trans (if_pos rfl),
    pushed_sameRegsBut s q, (pushed_memRead ..).trans (if_pos rfl), pushed_sameMemoryBut s q,
    advance_toNat hl, rfl, ⟨rfl, rfl, rfl⟩, rfl, rfl, rfl⟩

/-- Settles O20: with room above the SP to increment the check passes, and the commit retires. -/
theorem popCompletes : Obligations.PopCompletes := by
  intro s q hl hsp
  have hsp' : (popSp s q).toNat ≠ 255 := BitVec.toNat_ne.1 hsp
  have hnew : ((s.popped q).reg 7).toNat = (popSp s q).toNat + 1 := by
    rw [popped_reg, if_pos rfl, increment_toNat hsp']
  refine ⟨_, exec_pop q hl hsp', fun hq => ⟨?_, ?_⟩, fun hq => ?_, fun r hr => ?_, fun _ => rfl,
    advance_toNat hl, rfl, ⟨rfl, rfl, rfl⟩, rfl, rfl, rfl⟩
  · exact (popped_reg s q q).trans ((if_neg hq).trans (if_pos rfl))
  · exact hnew.trans (by rw [popSp, spIndex_eq, if_neg hq, State.sp_eq])
  · exact hnew.trans (by rw [popSp, spIndex_eq, if_pos hq, popAddress, State.sp_eq])
  · obtain ⟨hrq, hr7⟩ : r ≠ q ∧ r ≠ 7 := by simpa using hr
    exact (popped_reg s q r).trans ((if_neg hr7).trans (if_neg hrq))

/-! ## The boundaries -/

/-- Settles O30: the stack check fails before anything is written. -/
theorem pushAtZeroOverflows : Obligations.PushAtZeroOverflows := fun s q h =>
  ⟨_, exec_push_overflow q (by rw [h]; rfl), preciseFault_raise ⟨rfl, rfl, rfl⟩ rfl .stackOverflow,
    rfl, rfl, rfl⟩

/-- Settles O31: in both cases the SP to increment is 255, so the stack check fails before anything is
written. -/
theorem popAtTopUnderflows : Obligations.PopAtTopUnderflows := by
  intro s q h
  have htop : popSp s q = 255#8 := by
    obtain ⟨hq, hsp⟩ | ⟨hq, hbyte⟩ := h
    · exact (if_neg hq).trans hsp
    · exact (if_pos hq).trans hbyte
  exact ⟨_, exec_pop_underflow q (by rw [htop]; rfl), preciseFault_raise ⟨rfl, rfl, rfl⟩ rfl .stackUnderflow,
    rfl, rfl, rfl⟩

/-! ## The stack laws -/

/-- A push and a pop of registers other than R7: the pushed value is in the popped register, SP and every
other register are as before, and memory differs at SP - 1 alone, where the pushed value stays (R147). -/
theorem push_then_pop {s : State} {p q : Reg} (hp : p ≠ 7) (hq : q ≠ 7) (hsp : s.reg 7 ≠ 0#8)
    (hl : s.pc.toNat + 4 ≤ 255) :
    ∃ s1 s2, exec (.push (regByte p)) s = .next s1 ∧ exec (.pop (regByte q)) s1 = .next s2 ∧
      s1.memRead (pushAddress (s.reg 7)) = s.reg p ∧ SameMemoryBut (pushAddress (s.reg 7)) s s1 ∧
      SameMemory s1 s2 ∧ s2.reg q = s.reg p ∧ SameRegsBut [q] s s2 ∧ s2.pc.toNat = s.pc.toNat + 4 := by
  obtain ⟨s1, hpush, hdec, hsp1, hregs1, hstored, hmem1, hpc1, -⟩ := pushCompletes s p (by omega) hsp
  rw [if_neg hp] at hstored
  have hroom : s1.reg 7 ≠ 255#8 := by rw [hsp1]; bv_omega
  obtain ⟨s2, hpop, hpopped, -, hregs2, hmem2, hpc2, -⟩ :=
    popCompletes s1 q (by omega) (by rwa [if_neg hq])
  obtain ⟨hval, hinc⟩ := hpopped hq
  refine ⟨s1, s2, hpush, hpop, hstored, hmem1, hmem2, ?_, fun r hr => ?_, by omega⟩
  · rw [hval, hsp1, hstored]
  · by_cases hr7 : r = 7
    · subst hr7
      rw [hsp1] at hinc
      bv_omega
    · exact (hregs2 r (by simpa [hr7] using hr)).trans (hregs1 r (by simpa using hr7))

/-- Settles O38: the pop reads the cell that the push wrote. -/
theorem popUndoesPush : Obligations.PopUndoesPush := by
  intro s p q hp hq hsp hl
  obtain ⟨s1, s2, hpush, hpop, hstored, -, hmem2, hval, hregs, -⟩ := push_then_pop hp hq hsp hl
  exact ⟨s1, s2, hpush, hpop, hval, hregs 7 (by simpa using hq.symm), (hmem2 _).trans hstored⟩

/-- Settles O39: the inner push and pop keep SP and the cell of the outer push, which the last pop reads. -/
theorem lastPushedIsFirstPopped : Obligations.LastPushedIsFirstPopped := by
  intro s p q u w hp hq hu hw huw hsp hl
  obtain ⟨s1, hpush1, hdec1, hsp1, hregs1, hstored1, -, hpc1, -⟩ :=
    pushCompletes s p (by omega) (by bv_omega)
  rw [if_neg hp] at hstored1
  obtain ⟨s2, s3, hpush2, hpop1, hstored2, hmem2, hmem3, hval3, hregs3, hpc3⟩ :=
    push_then_pop (s := s1) hq hu (by rw [hsp1]; bv_omega) (by omega)
  have hq1 : s1.reg q = s.reg q := hregs1 q (by simpa using hq)
  have hsp3 : s3.reg 7 = pushAddress (s.reg 7) := (hregs3 7 (by simpa using hu.symm)).trans hsp1
  obtain ⟨s4, hpop2, hpopped, -, hregs4, -⟩ :=
    popCompletes s3 w (by omega) (by rw [if_neg hw, hsp3]; bv_omega)
  obtain ⟨hval4, hinc⟩ := hpopped hw
  have houter : s2.memRead (pushAddress (s.reg 7)) = s.reg p :=
    (hmem2 _ (by rw [hsp1, pushAddress, pushAddress]; bv_omega)).trans hstored1
  refine ⟨s1, s2, s3, s4, hpush1, hpush2, hpop1, hpop2, houter, ?_, ?_, ?_, ?_⟩
  · have hsecond : pushAddress (s1.reg 7) = s.reg 7 - 2#8 := by
      rw [hsp1, pushAddress, pushAddress]; bv_omega
    rw [← hsecond, hstored2, hq1]
  · rw [hregs4 u (by simp [huw, hu]), hval3, hq1]
  · rw [hval4, hsp3, hmem3, houter]
  · rw [hsp3] at hinc
    bv_omega

/-- Settles O40: the push stores the decremented SP, and the pop increments what it reads back. -/
theorem pushPopOfSpRestoresIt : Obligations.PushPopOfSpRestoresIt := by
  intro s hsp hl
  obtain ⟨s1, hpush, hdec, hsp1, -, hstored, -, hpc1, -⟩ := pushCompletes s 7 (by omega) hsp
  rw [if_pos rfl] at hstored
  have hread : s1.memRead (s1.reg 7) = pushAddress (s.reg 7) := by rw [hsp1, hstored]
  obtain ⟨s2, hpop, -, hpopped, -⟩ :=
    popCompletes s1 7 (by omega) (by rw [if_pos rfl, hread]; bv_omega)
  have hinc := hpopped rfl
  rw [hread] at hinc
  exact ⟨s1, s2, hpush, hpop, hstored, by bv_omega⟩

/-! ## The rules -/

theorem not_illegal_regByte (q : Reg) : ¬ 7 < (regByte q).toNat := by
  rw [regByte_toNat]; omega

/-- PUSH's checks: the index byte, then SP above 0 (R94, R141). -/
theorem faultBefore_push (r : Byte) (s : State) : faultBefore (.push r) s =
    if 7 < r.toNat then some .illegalRegister
    else if (s.reg 7).toNat = 0 then some .stackOverflow else none := by
  rw [faultBefore.eq_def, wellFormed_push]
  obtain ⟨q, rfl, hnames⟩ | ⟨hr, hnames⟩ := regByte_or_illegal r
  · rw [if_pos hnames, if_neg (not_illegal_regByte q)]
  · rw [hnames, if_pos hr]; rfl

/-- The SP that a POP increments, by its index byte (R145). -/
theorem popSp_eq_ite_regByte (s : State) (q : Reg) :
    popSp s q = if regByte q = 7#8 then s.memRead (s.reg 7) else s.reg 7 :=
  if_congr regByte_eq_seven.symm rfl rfl

/-- POP's checks: the index byte, then the SP to increment below 255 (R94, R146). -/
theorem faultBefore_pop (r : Byte) (s : State) : faultBefore (.pop r) s =
    if 7 < r.toNat then some .illegalRegister
    else if (if r = 7#8 then s.memRead (s.reg 7) else s.reg 7).toNat = 255 then some .stackUnderflow
    else none := by
  rw [faultBefore.eq_def, wellFormed_pop]
  obtain ⟨q, rfl, hnames⟩ | ⟨hr, hnames⟩ := regByte_or_illegal r
  · rw [if_pos hnames, if_neg (not_illegal_regByte q), ← popSp_eq_ite_regByte]
    dsimp only
    rw [regOf_regByte]
  · rw [hnames, if_pos hr]; rfl

theorem commit_push (q : Reg) (s : State) : commit (.push (regByte q)) s = s.pushed q := by
  rw [commit, regOf_regByte]

theorem commit_pop (q : Reg) (s : State) : commit (.pop (regByte q)) s = s.popped q := by
  rw [commit, regOf_regByte]

/-- A step of an opcode with one operand, whole: the operand fetch, the checks before the commit, the commit,
and the retirement decide in this order (R98, R170). -/
theorem step_of_one_operand {s : State} {op : Opcode} (hs : s.status = .running)
    (hop : s.memRead s.pc = op.byte) (hone : op.operandCount = 1) :
    ∃ t, step s = .next t ∧
      if s.pc.toNat = 255 then PreciseFault 3#8 s t
      else match faultBefore (s.fetchedInstr op) s with
        | some c => PreciseFault c.code s t
        | none => SameData (commit (s.fetchedInstr op) s) t ∧
          if s.pc.toNat = 254 then FaultRecorded 4#8 s t
          else t.pc.toNat = s.pc.toNat + 2 ∧ SameControl s t := by
  have hpc := s.pc.isLt
  by_cases htop : s.pc.toNat = 255
  · simp only [if_pos htop]
    exact step_operandRange hs hop (by omega)
  · have hp : s.pc.toNat + op.operandCount ≤ 255 := by omega
    simp only [if_neg htop]
    cases hf : faultBefore (s.fetchedInstr op) s with
    | some c => exact step_checkFails hs hop hp hf
    | none =>
      have hhlt : op ≠ .hlt := by rintro rfl; cases hone
      obtain ⟨t, hstep, hdata, hretire⟩ := step_commits hs hop hhlt hp hf
      rw [Opcode.length, hone] at hretire
      exact ⟨t, hstep, hdata, (if_congr (by omega) rfl rfl).mp hretire⟩

/-- Settles O25: with its checks written out, a step of one operand is the rule, and the commit writes what
the rule says. -/
theorem pushRule : Obligations.PushRule := by
  intro s hs hop
  obtain ⟨t, hstep, h⟩ := step_of_one_operand (op := .push) hs hop rfl
  refine ⟨t, hstep, ?_⟩
  rw [fetchedInstr_eq_build, Opcode.build, faultBefore_push] at h
  by_cases htop : s.pc.toNat = 255
  · rwa [if_pos htop] at h ⊢
  rw [if_neg htop] at h ⊢
  obtain ⟨q, hq, -⟩ | ⟨hillegal, -⟩ := regByte_or_illegal (s.memRead (s.pc + 1#8))
  · rw [hq, if_neg (not_illegal_regByte q)] at h ⊢
    by_cases hzero : (s.reg 7).toNat = 0
    · rwa [if_pos hzero] at h ⊢
    · rw [if_neg hzero] at h ⊢
      obtain ⟨hdata, hretire⟩ := h
      rw [commit_push] at hdata
      have hsp : t.reg 7 = pushAddress (s.reg 7) :=
        (hdata.reg 7).trans ((pushed_reg s q 7).trans (if_pos rfl))
      refine ⟨?_, fun r hr => ?_, ⟨q, rfl, ?_⟩, fun a ha => ?_, hdata.2.2, hretire⟩
      · rw [hsp, pushAddress_toNat hzero]
      · rw [hdata.reg, pushed_sameRegsBut s q r hr]
      · rw [hdata.memRead, hdata.reg, hdata.reg, pushed_memRead_sp]
      · rw [hdata.memRead, pushed_sameMemoryBut s q a (hsp ▸ ha)]
  · rwa [if_pos hillegal] at h ⊢

/-- Settles O26: with its checks written out, a step of one operand is the rule, and the commit writes what
the rule says. -/
theorem popRule : Obligations.PopRule := by
  intro s hs hop v sp1
  obtain ⟨t, hstep, h⟩ := step_of_one_operand (op := .pop) hs hop rfl
  refine ⟨t, hstep, ?_⟩
  rw [fetchedInstr_eq_build, Opcode.build, faultBefore_pop] at h
  by_cases htop : s.pc.toNat = 255
  · rwa [if_pos htop] at h ⊢
  rw [if_neg htop] at h ⊢
  obtain ⟨q, hq, -⟩ | ⟨hillegal, -⟩ := regByte_or_illegal (s.memRead (s.pc + 1#8))
  · have hsp1 : sp1 = popSp s q := by rw [popSp_eq_ite_regByte, ← hq]
    rw [hq, if_neg (not_illegal_regByte q), ← popSp_eq_ite_regByte] at h
    rw [hq, if_neg (not_illegal_regByte q), hsp1]
    by_cases hlast : (popSp s q).toNat = 255
    · rwa [if_pos hlast] at h ⊢
    · rw [if_neg hlast] at h ⊢
      obtain ⟨hdata, hretire⟩ := h
      rw [commit_pop] at hdata
      refine ⟨?_, fun r hr => ?_, hdata.memRead, hdata.2.2, hretire⟩
      · rw [hdata.reg, popped_reg, if_pos rfl, increment_toNat hlast]
      · rw [hdata.reg, popped_reg, if_neg hr]
        exact if_congr regByte_inj.symm rfl rfl
  · rwa [if_pos hillegal] at h ⊢

end Sys2Proof.Machine
end

section
/-! PROOFS. The statements on the faults (spec/60_exceptions.md): the operand range, the register index, the
order in which the conditions are reported, and the reserved cause 7. -/

namespace Sys2Proof.Machine

/-! ## The operand range -/

theorem tableOperandCount_one : ∀ b ∈ [0x47#8, 0x45#8, 0x46#8], tableOperandCount b = some 1 := by decide

theorem tableOperandCount_two : ∀ b ∈ [0x82#8, 0xA2#8], tableOperandCount b = some 2 := by decide

/-- Settles O28: the opcode's operand count carries the last operand byte above address 255. -/
theorem operandRangeFaults : Obligations.OperandRangeFaults := by
  intro s hs h
  have hrange {n : Nat} (htable : tableOperandCount (s.memRead s.pc) = some n) (hp : 255 < s.pc.toNat + n) :
      ∃ t, step s = .next t ∧ PreciseFault 3#8 s t := by
    obtain ⟨op, hop, rfl⟩ := tableOperandCount_eq_some.1 htable
    exact step_operandRange hs hop hp
  obtain ⟨hb, hpc⟩ | ⟨hb, hpc⟩ := h
  · exact hrange (tableOperandCount_one _ hb) (by omega)
  · exact hrange (tableOperandCount_two _ hb) (by omega)

/-! ## The register index -/

/-- One index byte above 7 is enough to make an instruction ill-formed (R69). -/
theorem wellFormed_eq_false {i : Instr} {r : Byte} (hmem : r ∈ i.regOperands) (hr : 7 < r.toNat) :
    i.wellFormed = false :=
  List.all_eq_false.2 ⟨r, hmem, by simpa [namesRegister] using hr⟩

/-- An ill-formed instruction takes ILLEGAL_REGISTER before any other check (R94, R162). -/
theorem exec_illegalRegister {i : Instr} (h : i.wellFormed = false) (s : State) :
    exec i s = .next (s.raise .illegalRegister) := by
  have hf : faultBefore i s = some .illegalRegister := by rw [faultBefore.eq_def, h]; rfl
  rw [exec_eq, hf]

/-- Settles O29: in each of the six forms the byte is a register operand. -/
theorem illegalRegisterFaults : Obligations.IllegalRegisterFaults := by
  intro s r x i hr hi
  have hoperand : r ∈ i.regOperands := by
    simp only [List.mem_cons, List.not_mem_nil, or_false] at hi
    obtain rfl | rfl | rfl | rfl | rfl | rfl := hi <;> simp [Instr.regOperands]
  exact ⟨_, exec_illegalRegister (wellFormed_eq_false hoperand hr) s,
    preciseFault_raise ⟨rfl, rfl, rfl⟩ rfl .illegalRegister, rfl, rfl, rfl⟩

/-! ## The order of the faults -/

/-- Where the operand bytes exist and the checks pass, only the next address is left to decide (R97), and for
HLT not even that (R96). -/
theorem step_checksPass {s : State} {op : Opcode} (hs : s.status = .running)
    (hop : s.memRead s.pc = op.byte) (hp : s.pc.toNat + op.operandCount ≤ 255)
    (hf : faultBefore (s.fetchedInstr op) s = none) :
    ∃ t, step s = .next t ∧
      if op.byte ≠ 0x01#8 ∧ 255 < s.pc.toNat + op.length then FaultRecorded 4#8 s t
      else t.status ≠ .faulted ∧ t.faultCause = s.faultCause ∧ t.faultPc = s.faultPc := by
  by_cases hhlt : op.byte = 0x01#8
  · obtain ⟨t, hstep, hhalted, -, -, -, -, hrecord⟩ := hltRule s hs (hop.trans hhlt)
    refine ⟨t, hstep, ?_⟩
    rw [if_neg (not_and_of_not_left _ (not_not.2 hhlt))]
    exact ⟨by simp [hhalted], hrecord⟩
  · have hne : op ≠ .hlt := fun h => hhlt (congrArg Opcode.byte h)
    obtain ⟨t, hstep, -, hretire⟩ := step_commits hs hop hne hp hf
    refine ⟨t, hstep, ?_⟩
    by_cases hl : 255 < s.pc.toNat + op.length
    · rw [if_pos hl] at hretire
      rwa [if_pos ⟨hhlt, hl⟩]
    · rw [if_neg hl] at hretire
      obtain ⟨-, hstatus, hrecord⟩ := hretire
      rw [if_neg (not_and_of_not_right _ hl)]
      exact ⟨by simp [hstatus, hs], hrecord⟩

/-- Settles O33: each stage of the step either reports its own condition of the table or hands on to the
next. -/
theorem firstFaultThatAppliesIsReported : Obligations.FirstFaultThatAppliesIsReported := by
  intro s hs
  cases ho : Opcode.ofByte (s.memRead s.pc) with
  | none =>
    have htable : tableFault s = some 1#8 := by simp [tableFault, tableOperandCount_eq_none.2 ho]
    rw [htable]
    exact ⟨_, (step_running hs).trans (cycle_illegal ho),
      faultRecorded_raise (u := s.fetchOpcode) rfl .illegalOpcode⟩
  | some op =>
    have hop := Opcode.ofByte_eq_some.1 ho
    rw [tableFault_legal hop, faultBefore_congr (fetched_sameData s op)]
    by_cases hp : 255 < s.pc.toNat + op.operandCount
    · obtain ⟨t, hstep, hfault, -⟩ := step_operandRange hs hop hp
      rw [if_pos hp]
      exact ⟨t, hstep, hfault⟩
    · rw [if_neg hp]
      have hp' := Nat.le_of_not_lt hp
      cases hf : faultBefore (s.fetchedInstr op) s with
      | some c =>
        obtain ⟨t, hstep, hfault, -⟩ := step_checkFails hs hop hp' hf
        exact ⟨t, hstep, hfault⟩
      | none =>
        obtain ⟨t, hstep, hend⟩ := step_checksPass hs hop hp' hf
        refine ⟨t, hstep, ?_⟩
        rw [Option.map_none, Option.none_or]
        split_ifs at hend ⊢ <;> exact hend

/-! ## The reserved cause -/

/-- Only ALU_BAD_OP has the code 7 (R160). -/
theorem code_ne_seven {c : FaultCause} (hc : c ≠ .aluBadOp) : c.code ≠ 7#8 := by
  cases c <;> revert hc <;> decide

/-- An instruction leaves the recorded cause, or records another than ALU_BAD_OP (R167). -/
theorem exec_faultCause {i : Instr} {s t : State} (h : exec i s = .next t) :
    t.faultCause = s.faultCause ∨ t.faultCause ≠ 7#8 := by
  obtain ⟨-, hcommit, -⟩ := commit_frame i s
  obtain ⟨-, rfl⟩ | ⟨c, hc, rfl⟩ | ⟨-, -, -, rfl⟩ | ⟨-, -, -, rfl⟩ := exec_next h
  · exact .inl rfl
  · exact .inr (code_ne_seven (faultBefore_ne_aluBadOp hc))
  · exact .inl hcommit
  · exact .inr (code_ne_seven (c := .pcOverflow) (by decide))

/-- A step leaves the recorded cause, or records another than ALU_BAD_OP (R167). -/
theorem step_faultCause {s t : State} (h : step s = .next t) :
    t.faultCause = s.faultCause ∨ t.faultCause ≠ 7#8 := by
  obtain ⟨-, ⟨-, rfl⟩ | ⟨op, -, -, rfl⟩ | ⟨op, -, -, hexec⟩⟩ := step_next h
  · exact .inr (code_ne_seven (c := .illegalOpcode) (by decide))
  · exact .inr (code_ne_seven (c := .operandRange) (by decide))
  · obtain ⟨-, -, -, -, hcause, -⟩ := fetched_frame s op
    rw [← hcause]
    exact exec_faultCause hexec

/-- Settles O36: without a result the ALU takes the reserved fault, and neither an instruction nor a step
records it. -/
theorem aluBadOpIsNeverRaised : Obligations.AluBadOpIsNeverRaised := by
  have hkept {s t : State} (h : t.faultCause = s.faultCause ∨ t.faultCause ≠ 7#8)
      (ht : t.faultCause = 7#8) : s.faultCause = 7#8 :=
    (h.resolve_right (not_not.2 ht)).symm.trans ht
  refine ⟨fun s len p q => ?_, fun i s t h => hkept (exec_faultCause h),
    fun s t h => hkept (step_faultCause h)⟩
  have hraise : aluRetire .other len p q s = .next (s.raise .aluBadOp) := by
    rw [aluRetire, alu_other, raiseFault]
  exact ⟨_, hraise, preciseFault_raise ⟨rfl, rfl, rfl⟩ rfl .aluBadOp⟩

end Sys2Proof.Machine
end

section
/-! PROOFS. The statements on reset and the host interface (spec/70_reset_and_hazards.md): what reset and start
give, where an image lies once it is loaded, and what the ports deliver. -/

namespace Sys2Proof.Machine

/-! ## Reset and start -/

/-- Only reset has an effect outside IDLE (R195, R197). -/
theorem hostAct_outside_idle {a : HostAction} {s : State} (ha : a ≠ .reset) (hs : s.status ≠ .idle) :
    hostAct a s = s := by
  obtain ⟨hreset, -⟩ | ⟨-, h⟩ | ⟨hidle, -⟩ := hostAct_cases a s
  · exact absurd hreset ha
  · exact h
  · exact absurd hidle hs

theorem hostAct_start {s : State} (h : s.status = .idle) : hostAct .start s = s.setStatus .running :=
  if_pos h

theorem State.Ended.not_idle {s : State} (h : s.Ended) : s.status ≠ .idle := by
  obtain h | h := h <;> simp [h]

theorem State.Ended.not_running {s : State} (h : s.Ended) : s.status ≠ .running := by
  obtain h | h := h <;> simp [h]

/-- Settles O41: the reset state has the spec's values, and an ended run is neither IDLE, where alone the other
host actions have an effect, nor RUNNING, where alone there is a step. -/
theorem resetGivesTheSpecsValues : Obligations.ResetGivesTheSpecsValues := by
  refine ⟨fun _ => ⟨State.reset_memRead, State.reset_spReg, rfl, rfl, rfl, rfl, rfl⟩,
    fun s a hended ha => ?_⟩
  have hs : s.Ended := hended
  exact ⟨hostAct_outside_idle ha hs.not_idle, fun t h => hs.not_running (running_of_step h)⟩

/-- Settles O42: start sets the status alone, and a RUNNING machine has a step. -/
theorem startRunsOnlyFromIdle : Obligations.StartRunsOnlyFromIdle := by
  refine fun s => ⟨fun h => ?_, hostAct_outside_idle (by decide)⟩
  rw [hostAct_start h]
  exact ⟨rfl, step_answers (State.setStatus_status s .running)⟩

/-! ## The program image -/

/-- Loading an image that fits replaces memory alone: its bytes from address 0, and behind them what was
there (R193). -/
theorem loadImage_fits {s : State} {image : List Byte} (hs : s.status = .idle) (h : image.length ≤ 256) :
    ∃ m, loadImage image s = some { s with mem := m } ∧
      ∀ a : Byte, ({ s with mem := m } : State).memRead a =
        if a.toNat < image.length then image.getD a.toNat 0#8 else s.memRead a := by
  obtain ⟨m, hload, hread⟩ := loadFrom_spec image 0 hs (by omega)
  refine ⟨m, (if_pos h).trans (congrArg some hload), fun a => ?_⟩
  simpa using hread a

theorem loadImage_oversize {image : List Byte} (h : 256 < image.length) (s : State) :
    loadImage image s = none :=
  if_neg (Nat.not_le_of_lt h)

/-- Settles O43: memory is replaced by the image and the cells behind it, and nothing else changes. -/
theorem imageIsPlacedFromAddressZero : Obligations.ImageIsPlacedFromAddressZero := by
  intro s image hs hlen
  obtain ⟨m, hload, hread⟩ := loadImage_fits hs hlen
  have hbehind (a : Byte) (ha : image.length ≤ a.toNat) :
      ({ s with mem := m } : State).memRead a = s.memRead a := by
    rw [hread, if_neg (Nat.not_lt_of_le ha)]
  refine ⟨_, hload, fun i hi => ?_, hbehind, fun hreset a ha => ?_, rfl⟩
  · have haddr : (BitVec.ofNat 8 i).toNat = i := by
      rw [BitVec.toNat_ofNat, Nat.mod_eq_of_lt (by omega)]
    rw [hread, haddr, if_pos hi, List.getD_eq_getElem _ _ hi]
  · rw [hbehind a ha, hreset, State.reset_memRead]

/-- Settles O44: the refused image leaves the reset state, whose status is IDLE. -/
theorem oversizeImageIsRefused : Obligations.OversizeImageIsRefused := by
  intro s image h
  have hlaunch : launch image = State.reset := by rw [launch, loadImage_oversize h]
  exact ⟨loadImage_oversize h s, hlaunch, by rw [hlaunch, State.reset_status]⟩

/-- A launched machine's memory is the image, and 0 behind it (R190, R193). -/
theorem launch_memRead {image : List Byte} (h : image.length ≤ 256) (a : Byte) :
    (launch image).memRead a = image.getD a.toNat 0#8 := by
  obtain ⟨m, hload, hread⟩ := loadImage_fits (s := State.reset) rfl h
  have hlaunch : launch image = hostAct .start { State.reset with mem := m } := by rw [launch, hload]
  rw [hlaunch, hostAct_start rfl, State.setStatus_memRead, hread]
  split_ifs with ha
  · rfl
  · rw [State.reset_memRead, List.getD_eq_default _ _ (Nat.le_of_not_lt ha)]

/-- Settles O46: the launched machine is RUNNING at address 0, and a step loads IR from `pc`. -/
theorem firstStepFetchesAddressZero : Obligations.FirstStepFetchesAddressZero := by
  intro image h
  obtain ⟨hs, hpc⟩ := launch_fits h
  obtain ⟨t, hstep⟩ := step_answers hs
  refine ⟨t, hstep, hpc, ?_⟩
  rw [step_ir hstep, hpc, launch_memRead h]
  rfl

/-! ## The ports -/

/-- No host action but reset writes a register, `pc` or the output (R197). -/
theorem hostAct_frame {a : HostAction} (ha : a ≠ .reset) (s : State) :
    (hostAct a s).x = s.x ∧ (hostAct a s).pc = s.pc ∧ (hostAct a s).out = s.out := by
  obtain ⟨hreset, -⟩ | ⟨-, h⟩ | ⟨-, ⟨k, b, -, h⟩ | ⟨-, h⟩⟩ := hostAct_cases a s
  · exact absurd hreset ha
  all_goals rw [h]; exact ⟨rfl, rfl, rfl⟩

/-- The out port delivers what a step appends to the output (R113). -/
theorem outPort_of_append {s t : State} {vs : List Byte} (h : t.out = s.out ++ vs) : outPort s t = vs := by
  rw [outPort, h, List.drop_left]

theorem outPort_of_out_eq {s t : State} (h : t.out = s.out) : outPort s t = [] :=
  outPort_of_append (h.trans (List.append_nil _).symm)

/-- What a PRN step does to the output: it takes a precise fault of a cause other than PC_OVERFLOW, or it emits
the named register's value, and then ends in no fault but PC_OVERFLOW (R97, R112). -/
theorem step_prn_cases {s t : State} (h : step s = .next t) (hop : s.memRead s.pc = 0x47#8) :
    (∃ c, c ≠ 4#8 ∧ PreciseFault c s t) ∨
    (∃ q : Reg, regByte q = s.memRead (s.pc + 1#8) ∧ t.out = s.out ++ [s.reg q]) ∧
      ¬(t.status = .faulted ∧ t.faultCause ≠ 4#8) := by
  have hs := running_of_step h
  obtain ⟨u, hu, hrule⟩ := prnRule s hs hop
  cases h.symm.trans hu
  split_ifs at hrule with htop hillegal hlast
  · exact .inl ⟨3#8, by decide, hrule⟩
  · exact .inl ⟨2#8, by decide, hrule⟩
  · obtain ⟨hemit, -, -, -, hcause, -⟩ := hrule
    exact .inr ⟨hemit, fun hfault => hfault.2 hcause⟩
  · obtain ⟨hemit, -, -, -, hstatus, -⟩ := hrule
    exact .inr ⟨hemit, fun hfault => by simp [hstatus, hs] at hfault⟩

/-- Settles O45: each port is its status test, no host action but reset writes a register, and a step delivers
what it appends to the output. -/
theorem hostPortsAreLimited : Obligations.HostPortsAreLimited := by
  refine ⟨fun s addr byte q a => ⟨hostAct_load addr byte, hostAct_outside_idle (by simp), ?_, ?_, rfl,
    fun ha => hostAct_frame ha s⟩, fun s t h => ⟨fun hop => ?_, fun hop => ?_⟩⟩
  · exact fun hs => ⟨if_pos hs, if_pos hs, if_pos hs⟩
  · exact fun hs => ⟨if_neg hs, if_neg hs, if_neg hs⟩
  · obtain hout | ⟨v, -, hprn⟩ := step_out h
    · exact outPort_of_out_eq hout
    · exact absurd hprn hop
  · obtain ⟨c, hc, ⟨hstatus, hcause, -⟩, -, -, hout⟩ | ⟨⟨q, hq, hout⟩, hfault⟩ := step_prn_cases h hop
    · rw [if_pos ⟨hstatus, hcause ▸ hc⟩]
      exact outPort_of_out_eq hout
    · rw [if_neg hfault]
      exact ⟨q, hq, outPort_of_append hout⟩

end Sys2Proof.Machine
end
